-- ==== Sys2Proof/Word.lean ====
section
/-!
DEFINITION. The value types of the machine (00_scope.md R3, R5): 16-bit words, 8-bit bytes, and
the sixteen register numbers.
-/

namespace Sys2Proof

/-- A 16-bit value: a register's contents, an instruction word, or a byte address (R3, R5). -/
abbrev Word := BitVec 16

/-- One byte of memory (20_memory.md R23). -/
abbrev Byte := BitVec 8

/-- A register number, 0x0 to 0xF, naming R0 to RF (10_state.md R9; 30_encoding.md R45). -/
abbrev Reg := Fin 16

end Sys2Proof
end

