-- ==== Sys2Proof/Config.lean ====
section
/-!
DEFINITION. The parameters of 00_scope.md R4: what the source does not fix. `Config` holds the
parameters of the machine and `Launch` what the host supplies at each launch (INIT_MEM, INIT_REGS).
None of this is state (10_state.md R8). The defaults are the definition `config` of
Machine/Defaults.lean.
-/

namespace Sys2Proof

/-- EXT_SPACE: how the contested words 0xF000 to 0xF3FF decode (30_encoding.md R47, R49; D1). -/
inductive ExtSpace where
  /-- They are BNE R0 to BNE R3 (the default). -/
  | bne
  /-- They are refused, and executing one raises RefusedEncoding. -/
  | refuse
  deriving DecidableEq, Repr

/-- The operation kind given to FLAGS (10_state.md R14). -/
inductive FlagKind where
  | add
  | sub
  | logic
  | shift
  deriving DecidableEq, Repr

/-- SHR_FILL: what SHR shifts in at bit 15 (42_shift.md R72; D8). -/
inductive ShrFill where
  /-- Zeros (the default). -/
  | logical
  /-- Copies of bit 15. -/
  | arithmetic
  deriving DecidableEq, Repr

/-- SHIFT_OVER: SHL and SHR with an amount of 16 or more (42_shift.md R72; D8). -/
inductive ShiftOver where
  /-- The mathematical shift truncated to 16 bits (the default). -/
  | zero
  /-- The amount is taken modulo 16. -/
  | mod16
  /-- The step raises ShiftRange. -/
  | fault
  deriving DecidableEq, Repr

/-- MISALIGNED_DATA: LOAD and STORE at an odd address; `fault` is its only value (R4, D5). -/
inductive MisalignedData where
  | fault
  deriving DecidableEq, Repr

/-- The parameters of the machine (R4). `flags` takes the kind, the two operands, the result and
the old sr, and gives the new sr[3:0]. -/
structure Config where
  resetPc        : Word
  extSpace       : ExtSpace
  flags          : FlagKind → Word → Word → Word → Word → BitVec 4
  shrFill        : ShrFill
  shiftOver      : ShiftOver
  misalignedData : MisalignedData
  smcWindow      : Nat

/-- RESET_PC is an even address (R4; 20_memory.md R28). -/
def Config.wf (c : Config) : Bool := !c.resetPc.getLsbD 0

/-- What the host supplies at a launch (R4, R108; 10_state.md R20): INIT_REGS is `regs` (R1 to RF,
in order), `sp`, `lr` and `flags` (sr[3:0]); INIT_MEM is `image`, the bytes it writes, in order. -/
structure Launch where
  regs  : Vector Word 15
  sp    : Word
  lr    : Word
  flags : BitVec 4
  image : List (Word × Byte)
  deriving DecidableEq, Repr

/-- The launch that `State.reset` names: every register 0x0000 and nothing loaded. The spec gives
these values as arbitrary and warns against zero (R20, D22). DESIGN CHOICE, unsafe: log 2. -/
def Launch.bare : Launch where
  regs  := Vector.replicate 15 0
  sp    := 0
  lr    := 0
  flags := 0
  image := []

end Sys2Proof
end

