-- ==== Sys2Proof/Machine/Flags.lean ====
section
/-!
DEFINITION. The four flags of sr and the default flag-update function (10_state.md R13, R14).
Bit 0 of sr is its least significant bit (00_scope.md R5, G1).
-/

namespace Sys2Proof.Machine

/-- sr.Z, bit 0 (R13). -/
def flagZ (sr : Word) : Bool := sr.getLsbD 0
/-- sr.N, bit 1 (R13). -/
def flagN (sr : Word) : Bool := sr.getLsbD 1
/-- sr.C, bit 2 (R13). -/
def flagC (sr : Word) : Bool := sr.getLsbD 2
/-- sr.V, bit 3 (R13). -/
def flagV (sr : Word) : Bool := sr.getLsbD 3

/-- sr[3:0] from the four flags: V' ++ C' ++ N' ++ Z' (R14). -/
def packFlags (z n c v : Bool) : BitVec 4 :=
  BitVec.ofBool v ++ BitVec.ofBool c ++ BitVec.ofBool n ++ BitVec.ofBool z

/-- C' of R14: the carry out of bit 15 of an addition, the borrow of a subtraction, and the old C
for the other kinds. -/
def carryRule (k : FlagKind) (a b : Word) (sr : Word) : Bool :=
  match k with
  | .add => decide (65536 ≤ a.toNat + b.toNat)
  | .sub => decide (a.toNat < b.toNat)
  | .logic => flagC sr
  | .shift => flagC sr

/-- V' of R14, from the sign bits as the rule writes it; the old V for logic and shift. -/
def overflowRule (k : FlagKind) (a b r : Word) (sr : Word) : Bool :=
  match k with
  | .add => a.msb == b.msb && r.msb != a.msb
  | .sub => a.msb != b.msb && r.msb != a.msb
  | .logic => flagV sr
  | .shift => flagV sr

/-- FLAGS, the default of R14 (decision D7; log 12). -/
def flagsDefault (k : FlagKind) (a b r sr : Word) : BitVec 4 :=
  packFlags (r == 0) r.msb (carryRule k a b sr) (overflowRule k a b r sr)

end Sys2Proof.Machine
end

