-- ==== Sys2Proof/Machine/Defaults.lean ====
section
/-!
DEFINITION. The configuration the machine runs with: every parameter at the default of
00_scope.md R4 (log 1).
-/

namespace Sys2Proof.Machine

/-- The defaults of R4. Each is the spec's own choice (D1, D5, D7, D8, D12, D14): log 1. -/
def config : Config where
  resetPc        := 0x0000#16
  extSpace       := .bne
  flags          := flagsDefault
  shrFill        := .logical
  shiftOver      := .zero
  misalignedData := .fault
  smcWindow      := 0

end Sys2Proof.Machine
end

