-- ==== Sys2Proof/Syntax.lean ====
section
/-!
DEFINITION. The instructions as data: one constructor per row of spec/opcode_table.json, its
fields the fields of the row's format (30_encoding.md R39 to R46). The ignored bits of NOP and NOT
are no field (R50).
-/

namespace Sys2Proof

inductive Instr where
  -- 40_arithmetic.md
  | nop
  | add   (rd rs rt : Reg)
  | addi  (rd : Reg) (imm8 : BitVec 8)
  | sub   (rd rs rt : Reg)
  -- 41_logical.md
  | and   (rd rs rt : Reg)
  | or    (rd rs rt : Reg)
  | xor   (rd rs rt : Reg)
  | not   (rd rs : Reg)
  -- 42_shift.md
  | shl   (rd rs rt : Reg)
  | shr   (rd rs rt : Reg)
  -- 43_memory_ops.md; for STORE `rd` names the register whose value is stored
  | load  (rd rs : Reg) (off4 : BitVec 4)
  | store (rd rs : Reg) (off4 : BitVec 4)
  | loadi (rd : Reg) (imm8 : BitVec 8)
  -- 44_control_flow.md
  | jmp   (addr12 : BitVec 12)
  | beq   (rc : Reg) (off8 : BitVec 8)
  | bne   (rc : Reg) (off8 : BitVec 8)
  -- 45_extended.md; `xx` is the unexplained low byte of the source's pattern (R83)
  | halt
  | call  (xx : BitVec 8)
  | ret   (xx : BitVec 8)
  | push  (xx : BitVec 8)
  | pop   (xx : BitVec 8)
  deriving DecidableEq, Repr

/-- The instruction's mnemonic, as 30_encoding.md R46 writes it. -/
def Instr.mnemonic : Instr → String
  | .nop => "NOP"
  | .add _ _ _ => "ADD"
  | .addi _ _ => "ADDI"
  | .sub _ _ _ => "SUB"
  | .and _ _ _ => "AND"
  | .or _ _ _ => "OR"
  | .xor _ _ _ => "XOR"
  | .not _ _ => "NOT"
  | .shl _ _ _ => "SHL"
  | .shr _ _ _ => "SHR"
  | .load _ _ _ => "LOAD"
  | .store _ _ _ => "STORE"
  | .loadi _ _ => "LOADI"
  | .jmp _ => "JMP"
  | .beq _ _ => "BEQ"
  | .bne _ _ => "BNE"
  | .halt => "HALT"
  | .call _ => "CALL"
  | .ret _ => "RET"
  | .push _ => "PUSH"
  | .pop _ => "POP"

end Sys2Proof
end

