-- ==== Sys2Proof/WellFormed.lean ====
section
/-!
DEFINITION. The instructions that have an encoding (30_encoding.md R47, R49, R53). Every operand
value fits its field by its type, so the checks are about the 0xF space only.
-/

namespace Sys2Proof

/-- Whether some word decodes to the instruction under the setting `x` of EXT_SPACE:
CALL, RET, PUSH and POP are never decoded (R47, R83); BNE RF, 0xFF is the word of HALT (R49);
under `refuse` the words of BNE R0 to BNE R3 are refused (R47). -/
def Instr.wellFormed (x : ExtSpace) : Instr → Bool
  | .nop => true
  | .add _ _ _ => true
  | .addi _ _ => true
  | .sub _ _ _ => true
  | .and _ _ _ => true
  | .or _ _ _ => true
  | .xor _ _ _ => true
  | .not _ _ => true
  | .shl _ _ _ => true
  | .shr _ _ _ => true
  | .load _ _ _ => true
  | .store _ _ _ => true
  | .loadi _ _ => true
  | .jmp _ => true
  | .beq _ _ => true
  | .bne rc off8 =>
    !(rc == 15 && off8 == 0xFF#8) && !(x == .refuse && decide (rc.val ≤ 3))
  | .halt => true
  | .call _ => false
  | .ret _ => false
  | .push _ => false
  | .pop _ => false

end Sys2Proof
end

