-- ==== Sys2Proof/Decode.lean ====
section
/-!
DEFINITION. From words and bytes to instructions and back (30_encoding.md R38 to R53). The decoder
is total; what it does not decode it refuses by name. The encoder follows it in this file.
-/

namespace Sys2Proof

/-! ### Fields (R39) -/

/-- `w[15:12]`, the opcode of every format. -/
def opField (w : Word) : Fin 16 := (w.extractLsb' 12 4).toFin
/-- `w[11:8]`: rd, or rc in the B-Type. -/
def rdField (w : Word) : Reg := (w.extractLsb' 8 4).toFin
/-- `w[7:4]`: rs. -/
def rsField (w : Word) : Reg := (w.extractLsb' 4 4).toFin
/-- `w[3:0]`: rt. -/
def rtField (w : Word) : Reg := (w.extractLsb' 0 4).toFin
/-- `w[3:0]` as off4. -/
def off4Field (w : Word) : BitVec 4 := w.extractLsb' 0 4
/-- `w[7:0]`: imm8, or off8 in the B-Type. -/
def low8Field (w : Word) : BitVec 8 := w.extractLsb' 0 8
/-- `w[11:0]`: addr12. -/
def addr12Field (w : Word) : BitVec 12 := w.extractLsb' 0 12

/-! ### Decode -/

/-- Why bytes are not decoded. -/
inductive DecodeError where
  /-- A word 0xF000 to 0xF3FF when EXT_SPACE is `refuse` (R47). -/
  | refused (w : Word)
  /-- Fewer bytes than the one word an instruction takes (R38). -/
  | truncated
  deriving DecidableEq, Repr

/-- The `case w[15:12]` of R47: the instruction a word other than HALT's has for its opcode digit
`op`. NOP and NOT ignore their spare bits (R50). -/
def decodePrimary (x : ExtSpace) (op : Nat) (w : Word) : Except DecodeError Instr :=
  match op with
  | 0x0 => .ok .nop
  | 0x1 => .ok (.add (rdField w) (rsField w) (rtField w))
  | 0x2 => .ok (.addi (rdField w) (low8Field w))
  | 0x3 => .ok (.sub (rdField w) (rsField w) (rtField w))
  | 0x4 => .ok (.and (rdField w) (rsField w) (rtField w))
  | 0x5 => .ok (.or (rdField w) (rsField w) (rtField w))
  | 0x6 => .ok (.xor (rdField w) (rsField w) (rtField w))
  | 0x7 => .ok (.not (rdField w) (rsField w))
  | 0x8 => .ok (.shl (rdField w) (rsField w) (rtField w))
  | 0x9 => .ok (.shr (rdField w) (rsField w) (rtField w))
  | 0xA => .ok (.load (rdField w) (rsField w) (off4Field w))
  | 0xB => .ok (.store (rdField w) (rsField w) (off4Field w))
  | 0xC => .ok (.loadi (rdField w) (low8Field w))
  | 0xD => .ok (.jmp (addr12Field w))
  | 0xE => .ok (.beq (rdField w) (low8Field w))
  | _ => -- 0xF, the only other value of a 4-bit opcode
    if x = .refuse ∧ (rdField w).val ≤ 3 then .error (.refused w)
    else .ok (.bne (rdField w) (low8Field w))

/-- `Decode(w)` of R47, under the setting `x` of EXT_SPACE: HALT is tested before the primary opcode
(R49). -/
def decodeUnder (x : ExtSpace) (w : Word) : Except DecodeError Instr :=
  if w = 0xFFFF#16 then .ok .halt else decodePrimary x (opField w).val w

/-- The decoder of the machine: `Decode` with the default EXT_SPACE. -/
def decode (w : Word) : Except DecodeError Instr := decodeUnder Machine.config.extSpace w

/-- The 16-bit word whose low byte is `lo` and whose high byte is `hi` (20_memory.md R24). -/
def wordOfBytes (lo hi : Byte) : Word := hi ++ lo

/-- Decode one instruction from bytes in memory order, giving back the bytes that follow it. Every
instruction is one little-endian word (R38; 20_memory.md R24). -/
def decodeBytes (bs : List Byte) : Except DecodeError (Instr × List Byte) :=
  match bs with
  | lo :: hi :: rest => (decode (wordOfBytes lo hi)).map (fun i => (i, rest))
  | _ => .error .truncated

/-- The instruction the decoder reads from the table's word `w` of `nbits` bits, its bits above
`nbits` zero, laid out as memory stores it. -/
def decodeTableWord (nbits w : Nat) : Option Instr :=
  let v : Word := BitVec.ofNat 16 (w % 2 ^ nbits)
  match decodeBytes [v.extractLsb' 0 8, v.extractLsb' 8 8] with
  | .ok (i, _) => some i
  | .error _ => none

/-! ### Encode -/

/-- A register number as its 4-bit field. -/
def regBits (r : Reg) : BitVec 4 := BitVec.ofFin r

/-- R-Type and M-Type: `op rd rs rt` or `op rd rs off4`, four digits (R40, R42). -/
def packR (op : BitVec 4) (rd rs : Reg) (low : BitVec 4) : Word :=
  op ++ regBits rd ++ regBits rs ++ low

/-- I-Type and B-Type: `op rd imm8` or `op rc off8` (R41, R44). -/
def packI (op : BitVec 4) (rd : Reg) (low : BitVec 8) : Word := op ++ regBits rd ++ low

/-- J-Type: `op addr12` (R43). -/
def packJ (op : BitVec 4) (low : BitVec 12) : Word := op ++ low

/-- The word of a well-formed instruction, with spare bits zero: the canonical encoding (R50).
For CALL, RET, PUSH and POP, which have no encoding in the spec (R83), it is the source's first-word
pattern with its unexplained byte; they are not well formed, and no decoder gives them back. -/
def encode : Instr → Word
  | .nop => 0x0000#16
  | .add rd rs rt => packR 0x1#4 rd rs (regBits rt)
  | .addi rd imm8 => packI 0x2#4 rd imm8
  | .sub rd rs rt => packR 0x3#4 rd rs (regBits rt)
  | .and rd rs rt => packR 0x4#4 rd rs (regBits rt)
  | .or rd rs rt => packR 0x5#4 rd rs (regBits rt)
  | .xor rd rs rt => packR 0x6#4 rd rs (regBits rt)
  | .not rd rs => packR 0x7#4 rd rs 0x0#4
  | .shl rd rs rt => packR 0x8#4 rd rs (regBits rt)
  | .shr rd rs rt => packR 0x9#4 rd rs (regBits rt)
  | .load rd rs off4 => packR 0xA#4 rd rs off4
  | .store rd rs off4 => packR 0xB#4 rd rs off4
  | .loadi rd imm8 => packI 0xC#4 rd imm8
  | .jmp addr12 => packJ 0xD#4 addr12
  | .beq rc off8 => packI 0xE#4 rc off8
  | .bne rc off8 => packI 0xF#4 rc off8
  | .halt => 0xFFFF#16
  | .call xx => packI 0xF#4 0 xx
  | .ret xx => packI 0xF#4 1 xx
  | .push xx => packI 0xF#4 2 xx
  | .pop xx => packI 0xF#4 3 xx

/-! ### The opcode table as data (R46) -/

/-- One row of the map of R46: a word `w` selects it when `w &&& mask = value`. -/
structure OpcodeRow where
  name  : String
  value : Word
  mask  : Word
  deriving DecidableEq, Repr

/-- The selectable rows of R46 in the order R47 takes them: HALT before the primary opcodes. The
rows CALL, RET, PUSH and POP are never selected (R49) and stand in `extendedRows`. -/
def opcodeRows : List OpcodeRow :=
  [⟨"HALT", 0xFFFF#16, 0xFFFF#16⟩,
   ⟨"NOP", 0x0000#16, 0xF000#16⟩,
   ⟨"ADD", 0x1000#16, 0xF000#16⟩,
   ⟨"ADDI", 0x2000#16, 0xF000#16⟩,
   ⟨"SUB", 0x3000#16, 0xF000#16⟩,
   ⟨"AND", 0x4000#16, 0xF000#16⟩,
   ⟨"OR", 0x5000#16, 0xF000#16⟩,
   ⟨"XOR", 0x6000#16, 0xF000#16⟩,
   ⟨"NOT", 0x7000#16, 0xF000#16⟩] ++
  [⟨"SHL", 0x8000#16, 0xF000#16⟩,
   ⟨"SHR", 0x9000#16, 0xF000#16⟩,
   ⟨"LOAD", 0xA000#16, 0xF000#16⟩,
   ⟨"STORE", 0xB000#16, 0xF000#16⟩,
   ⟨"LOADI", 0xC000#16, 0xF000#16⟩,
   ⟨"JMP", 0xD000#16, 0xF000#16⟩,
   ⟨"BEQ", 0xE000#16, 0xF000#16⟩,
   ⟨"BNE", 0xF000#16, 0xF000#16⟩]

/-- The source's patterns for the four operations that are never selected (R46, R49). -/
def extendedRows : List OpcodeRow :=
  [⟨"CALL", 0xF000#16, 0xFF00#16⟩,
   ⟨"RET", 0xF100#16, 0xFF00#16⟩,
   ⟨"PUSH", 0xF200#16, 0xFF00#16⟩,
   ⟨"POP", 0xF300#16, 0xFF00#16⟩]

/-- Whether the word selects the row (R46). -/
def OpcodeRow.selects (r : OpcodeRow) (w : Word) : Bool := w &&& r.mask == r.value

/-- The first row the word selects (R46, R47). -/
def rowOf (w : Word) : Option OpcodeRow := opcodeRows.find? (fun r => r.selects w)

end Sys2Proof
end

