-- ==== Sys2Proof/Machine/State.lean ====
section
/-!
DEFINITION. The state of the machine: the tuple of 10_state.md R8, as plain data, its faults
(60_exceptions.md R93), its refusals (R94), and the state right after reset (R20, R105).
-/

namespace Sys2Proof.Machine

/-- The faults of 60_exceptions.md R93, each with the datum the rule records. A fault ends the run:
it is terminal and changes nothing else (R98). Stopping here is safe (D13). -/
inductive Fault where
  /-- Raised by the fetch of any step whose pc is odd (20_memory.md R28, D6); datum: the odd pc. Safe. -/
  | misalignedFetch (pc : Word)
  /-- Raised by LOAD and STORE at an odd effective address (R29, D5); datum: that address. Safe. -/
  | misalignedData (ea : Word)
  /-- Raised by STORE into one of the next SMC_WINDOW instruction slots (R37, D14); datum: the store
  address. Only when SMC_WINDOW is not 0. Safe. -/
  | smcHazard (ea : Word)
  /-- Raised by SHL and SHR with an amount of 16 or more (42_shift.md R72, D8); datum: the amount.
  Only when SHIFT_OVER is `fault`. Safe. -/
  | shiftRange (n : Word)
  /-- Raised by decode for the words 0xF000 to 0xF3FF (30_encoding.md R47, D1); datum: the word. Only
  when EXT_SPACE is `refuse`. Safe. -/
  | refusedEncoding (w : Word)
  deriving DecidableEq, Repr

/-- Why a step has no meaning. -/
inductive Refusal where
  /-- Raised by an arm of `exec` whose instruction has no meaning in the model. Safe. No arm does. -/
  | notModelled (mnemonic : String)
  /-- Raised by CALL, to which the spec gives no operation (45_extended.md R83, R84; D1). Safe. -/
  | callHasNoOperation
  /-- Raised by RET, to which the spec gives no operation (R83, R85; D1). Safe. -/
  | retHasNoOperation
  /-- Raised by PUSH, to which the spec gives no operation (R83, R86; D1). Safe. -/
  | pushHasNoOperation
  /-- Raised by POP, to which the spec gives no operation (R83, R87; D1). Safe. -/
  | popHasNoOperation
  deriving DecidableEq, Repr

/-- Memory: (address, byte) pairs, addresses strictly rising, none equal to `unwrittenByte`. The
address space is 0x0000 to 0xFFFF (20_memory.md R22). The operations are in Machine/Ops.lean. -/
abbrev Memory := List Host.Cell

/-- The architectural state, "and nothing else is state" (10_state.md R8). -/
structure State where
  /-- x[1] to x[15], in order; x[0] holds no state (R8, R9). -/
  regs   : Vector Word 15
  pc     : Word
  sp     : Word
  lr     : Word
  /-- Bits 3:0 are V, C, N, Z; bits 15:4 are reserved and read as zero (R13). -/
  sr     : Word
  mem    : Memory
  halted : Bool
  fault  : Option Fault
  deriving DecidableEq, Repr

/-- What a step answers, in the host's three outcomes (00_scope.md R7; log 4). -/
abbrev Answer := Host.Outcome State Fault Refusal

/-- The state after reset (R20, R105): pc is RESET_PC, not halted, no fault, sr[15:4] zero, and
nothing loaded. The registers, sp, lr and sr[3:0], which the spec leaves arbitrary, are those of
`Launch.bare` (DESIGN CHOICE, unsafe: log 2, log 3). `State.launch` is reset for every launch. -/
def State.reset : State where
  regs   := Launch.bare.regs
  pc     := config.resetPc
  sp     := Launch.bare.sp
  lr     := Launch.bare.lr
  sr     := Launch.bare.flags.setWidth 16
  mem    := []
  halted := false
  fault  := none

end Sys2Proof.Machine
end

