-- ==== Sys2Proof/Machine/Ops.lean ====
section
/-!
DEFINITION. The named operations over memory and registers (00_scope.md R6), fetch, raising a
fault, and launching the machine. There is no exception entry and no return from one to model
(60_exceptions.md R92, R98, R99): `raise` is all of it.
-/

namespace Sys2Proof.Machine

/-! ### Memory (20_memory.md R22 to R26) -/

/-- What an address that is not listed reads as. The spec leaves it arbitrary (R20, D22); DESIGN
CHOICE, unsafe: log 3. -/
def unwrittenByte : Byte := 0x00#8

/-- The byte listed for the address, or `unwrittenByte`. -/
def Memory.lookup (m : Memory) (a : Nat) : Byte :=
  match m with
  | [] => unwrittenByte
  | c :: rest => if c.1 = a then c.2 else Memory.lookup rest a

/-- The memory with nothing listed for the address. -/
def Memory.erase (m : Memory) (a : Nat) : Memory := m.filter (fun c => c.1 != a)

/-- List a byte before the first entry of a higher address. -/
def Memory.insert (m : Memory) (a : Nat) (b : Byte) : Memory :=
  match m with
  | [] => [(a, b)]
  | c :: rest => if a < c.1 then (a, b) :: c :: rest else c :: Memory.insert rest a b

/-- `mem[a]`: every one of the 65,536 addresses reads (R22, R34). -/
def Memory.read (m : Memory) (a : Word) : Byte := m.lookup a.toNat

/-- `mem[a] <- b`, keeping the canonical form. -/
def Memory.write (m : Memory) (a : Word) (b : Byte) : Memory :=
  if b = unwrittenByte then m.erase a.toNat else (m.erase a.toNat).insert a.toNat b

/-- `MemRead(a, 2)`: the little-endian word at an even address (R24, R25). -/
def Memory.readWord (m : Memory) (a : Word) : Word := wordOfBytes (m.read a) (m.read (a + 1#16))

/-- `MemWrite(a, 2, v)`: the low byte at `a`, the high byte at `a + 1` (R24, R26). -/
def Memory.writeWord (m : Memory) (a : Word) (v : Word) : Memory :=
  (m.write a (v.extractLsb' 0 8)).write (a + 1#16) (v.extractLsb' 8 8)

/-- The canonical form: addresses strictly rising and in the address space, no entry equal to what
an unlisted address reads as. -/
abbrev Memory.wf (m : Memory) : Prop :=
  m.Pairwise (fun c d => c.1 < d.1) ∧ ∀ c ∈ m, c.1 < 65536 ∧ c.2 ≠ unwrittenByte

/-! ### Registers (10_state.md R9, R10, R13) -/

/-- `x[i]`: R0 reads as 0x0000 (R9). -/
def State.readReg (s : State) (r : Reg) : Word :=
  match r with
  | ⟨0, _⟩ => 0x0000#16
  | ⟨n + 1, h⟩ => s.regs[n]'(Nat.lt_of_succ_lt_succ h)

/-- `x[i] <- v`: a write to R0 is discarded (R9, D21). -/
def State.writeReg (s : State) (r : Reg) (v : Word) : State :=
  match r with
  | ⟨0, _⟩ => s
  | ⟨n + 1, h⟩ => { s with regs := s.regs.set n v (Nat.lt_of_succ_lt_succ h) }

/-- `sr[3:0] <- f`; bits 15:4 are not written (R13, R14). -/
def State.setFlags (s : State) (f : BitVec 4) : State :=
  { s with sr := s.sr.extractLsb' 4 12 ++ f }

/-- `pc <- t`. -/
def State.setPc (s : State) (t : Word) : State := { s with pc := t }

/-- `pc <- pc + 2`, modulo 2^16 (R10, D10). -/
def State.nextPc (s : State) : State := s.setPc (s.pc + 2#16)

/-- `MemRead(a, 2)` of the state's memory. -/
def State.loadWord (s : State) (a : Word) : Word := s.mem.readWord a

/-- `MemWrite(a, 2, v)`: no register changes (R26). -/
def State.storeWord (s : State) (a v : Word) : State := { s with mem := s.mem.writeWord a v }

/-- `halted <- true` (R16). -/
def State.halt (s : State) : State := { s with halted := true }

/-- What an instruction that computes a value does with it: write the destination, then the flags
by FLAGS, then advance the pc (30_encoding.md R48). -/
def State.writeResult (s : State) (c : Config) (k : FlagKind) (rd : Reg) (a b r : Word) : State :=
  ((s.writeReg rd r).setFlags (c.flags k a b r s.sr)).nextPc

/-! ### Faults (60_exceptions.md R93) -/

/-- `raise <Fault>(info)`: the step ends in the fault, and no state is changed by the step. -/
def raise (f : Fault) : Answer := .fault f

/-- The state once the fault is recorded: only the `fault` component is changed (R93; log 4). -/
def State.recordFault (s : State) (f : Fault) : State := { s with fault := some f }

/-- The state the machine is left in by an answer to a step from `s` (R93, R107; log 4). -/
def stateAfter (s : State) (a : Answer) : State :=
  match a with
  | .next t => t
  | .fault f => s.recordFault f
  | .refused _ => s

/-! ### One step (30_encoding.md R48) -/

/-- Instruction fetch: the word at pc, from the memory as it stands (20_memory.md R27, R37). -/
def State.fetch (s : State) : Word := s.loadWord s.pc

/-- Whether an address is odd. -/
def isOdd (a : Word) : Bool := a.getLsbD 0

/-- The cycle of R48 around a decoder and a meaning. A faulted or halted machine takes no step: it
answers its fault again, or the same state (R16; log 4). -/
def cycle (dec : Word → Except DecodeError Instr) (run : Instr → State → Answer) (s : State) :
    Answer :=
  match s.fault with
  | some f => .fault f
  | none =>
    if s.halted then .next s
    else if isOdd s.pc then raise (.misalignedFetch s.pc)
    else
      match dec s.fetch with
      | .ok i => run i s
      | .error _ => raise (.refusedEncoding s.fetch)

/-! ### The host (70_reset_and_hazards.md R105, R108) -/

/-- Write the bytes of an image, in order. -/
def Memory.load (m : Memory) (image : List (Word × Byte)) : Memory :=
  match image with
  | [] => m
  | c :: rest => Memory.load (m.write c.1 c.2) rest

/-- Reset with what the host supplies: INIT_REGS and INIT_MEM (R20, R105, R108). -/
def State.launch (c : Config) (l : Launch) : State where
  regs   := l.regs
  pc     := c.resetPc
  sp     := l.sp
  lr     := l.lr
  sr     := l.flags.setWidth 16
  mem    := Memory.load [] l.image
  halted := false
  fault  := none

/-- The bytes of a program's words, little-endian, from an address on. -/
def imageOf (origin : Word) (ws : List Word) : List (Word × Byte) :=
  match ws with
  | [] => []
  | w :: rest =>
    (origin, w.extractLsb' 0 8) :: (origin + 1#16, w.extractLsb' 8 8) :: imageOf (origin + 2#16) rest

/-- `s` made ready to run the word `w` next: the word stands at pc, and what would keep the machine
from fetching it is cleared (an odd pc, the halted state, a recorded fault); log 6. -/
def State.readyToRun (s : State) (w : Word) : State :=
  let pc := s.pc &&& 0xFFFE#16
  { s with pc := pc, mem := s.mem.writeWord pc w, halted := false, fault := none }

end Sys2Proof.Machine
end

