-- ==== Sys2Proof/Machine/Operands.lean ====
section
/-!
DEFINITION. How each field becomes a 16-bit operand (30_encoding.md R45), the effective address
(43_memory_ops.md R75), the transfer targets (44_control_flow.md R79, R80), and the shifted values
(42_shift.md R72).
-/

namespace Sys2Proof.Machine

/-- Imm8 of LOADI and ADDI: sign-extended (R45; C5 for ADDI). -/
def immOperand (imm8 : BitVec 8) : Word := imm8.signExtend 16

/-- Off of LOAD and STORE: zero-extended, an unscaled byte offset (R45, D4). -/
def offOperand (off4 : BitVec 4) : Word := off4.setWidth 16

/-- `ea = (x[rs] + zext_16(off4))[15:0]` (R32, R75). -/
def effectiveAddress (s : State) (rs : Reg) (off4 : BitVec 4) : Word :=
  s.readReg rs + offOperand off4

/-- The target of a taken branch: the branch's own address plus the signed byte offset (R79, D2). -/
def branchTarget (pc : Word) (off8 : BitVec 8) : Word := pc + off8.signExtend 16

/-- The target of JMP: the zero-extended field (R80, D3). -/
def jumpTarget (addr12 : BitVec 12) : Word := addr12.setWidth 16

/-- SHL by `n` places, `n` below 16 or not: zeros enter at bit 0 and the result is truncated (R73). -/
def shiftLeft (a : Word) (n : Nat) : Word := if 16 ≤ n then 0x0000#16 else a <<< n

/-- SHR by `n` places, the fill as the parameter SHR_FILL says (R72, R74). -/
def shiftRight (fill : ShrFill) (a : Word) (n : Nat) : Word :=
  match fill with
  | .logical => if 16 ≤ n then 0x0000#16 else a >>> n
  | .arithmetic => if 16 ≤ n then (if a.msb then 0xFFFF#16 else 0x0000#16) else a.sshiftRight n

/-- The places to shift by for an amount register holding `n`, or the fault ShiftRange, as the
parameter SHIFT_OVER says for amounts of 16 or more (R72, D8). -/
def shiftPlaces (rule : ShiftOver) (n : Word) : Except Fault Nat :=
  match rule with
  | .zero => .ok n.toNat
  | .mod16 => .ok (n.toNat % 16)
  | .fault => if 16 ≤ n.toNat then .error (.shiftRange n) else .ok n.toNat

/-- The check of an effective address (R29, D5): an odd one is the fault MisalignedData. -/
def checkData (c : Config) (ea : Word) : Option Fault :=
  match c.misalignedData with
  | .fault => if isOdd ea then some (.misalignedData ea) else none

/-- Whether a STORE at `pc` to `ea` hits one of the next `window` instruction slots:
`ea = (pc + 2*j)[15:0]` for some `j` in 1..window (R37, R77). -/
def hitsWindow (window : Nat) (pc ea : Word) : Bool :=
  (List.range window).any (fun j => ea == pc + BitVec.ofNat 16 (2 * (j + 1)))

end Sys2Proof.Machine
end

