-- ==== Sys2Proof/Machine/Arithmetic.lean ====
section
/-!
DEFINITION. NOP, ADD, ADDI, SUB (40_arithmetic.md R62 to R66). A meaning named `…Under` takes the
parameters of R4; the meaning `exec` calls has the defaults.
-/

namespace Sys2Proof.Machine

/-- NOP (R63). -/
def execNop (s : State) : Answer := .next s.nextPc

/-- ADD (R64): `a + b` modulo 2^16. -/
def addUnder (c : Config) (rd rs rt : Reg) (s : State) : Answer :=
  let a := s.readReg rs
  let b := s.readReg rt
  .next (s.writeResult c .add rd a b (a + b))

def execAdd (rd rs rt : Reg) (s : State) : Answer := addUnder config rd rs rt s

/-- ADDI (R65): rd is source and destination; the immediate is sign-extended (C5). -/
def addiUnder (c : Config) (rd : Reg) (imm8 : BitVec 8) (s : State) : Answer :=
  let a := s.readReg rd
  let b := immOperand imm8
  .next (s.writeResult c .add rd a b (a + b))

def execAddi (rd : Reg) (imm8 : BitVec 8) (s : State) : Answer := addiUnder config rd imm8 s

/-- SUB (R66): rs is the minuend. -/
def subUnder (c : Config) (rd rs rt : Reg) (s : State) : Answer :=
  let a := s.readReg rs
  let b := s.readReg rt
  .next (s.writeResult c .sub rd a b (a - b))

def execSub (rd rs rt : Reg) (s : State) : Answer := subUnder config rd rs rt s

end Sys2Proof.Machine
end

