-- ==== Sys2Proof/Machine/Control.lean ====
section
/-!
DEFINITION. JMP, BEQ, BNE (44_control_flow.md R79 to R82). Targets are not checked here: an odd one
is caught by the next fetch (R79).
-/

namespace Sys2Proof.Machine

/-- A branch: to its target when `taken`, else to the next instruction (R79). -/
def branch (taken : Bool) (off8 : BitVec 8) (s : State) : Answer :=
  .next (if taken then s.setPc (branchTarget s.pc off8) else s.nextPc)

/-- JMP (R80). -/
def execJmp (addr12 : BitVec 12) (s : State) : Answer := .next (s.setPc (jumpTarget addr12))

/-- BEQ (R81): taken when x[rc] is zero (C9). -/
def execBeq (rc : Reg) (off8 : BitVec 8) (s : State) : Answer :=
  branch (s.readReg rc == 0x0000#16) off8 s

/-- BNE (R82): taken when x[rc] is not zero (C9). -/
def execBne (rc : Reg) (off8 : BitVec 8) (s : State) : Answer :=
  branch (s.readReg rc != 0x0000#16) off8 s

end Sys2Proof.Machine
end

