-- ==== Sys2Proof/Machine/Extended.lean ====
section
/-!
DEFINITION. HALT, and the four operations the spec refuses by name: CALL, RET, PUSH, POP
(45_extended.md R83 to R88).
-/

namespace Sys2Proof.Machine

/-- HALT (R88): the halted state; pc keeps the address of the HALT word (D11; log 16). -/
def execHalt (s : State) : Answer := .next s.halt

/-- CALL (R84): "Pseudocode: none"; refused by name (R94, D1; log 5). -/
def execCall (_xx : BitVec 8) (_s : State) : Answer := .refused .callHasNoOperation

/-- RET (R85): "Pseudocode: none"; refused by name (R94, D1; log 5). -/
def execRet (_xx : BitVec 8) (_s : State) : Answer := .refused .retHasNoOperation

/-- PUSH (R86): "Pseudocode: none"; refused by name (R94, D1; log 5). -/
def execPush (_xx : BitVec 8) (_s : State) : Answer := .refused .pushHasNoOperation

/-- POP (R87): "Pseudocode: none"; refused by name (R94, D1; log 5). -/
def execPop (_xx : BitVec 8) (_s : State) : Answer := .refused .popHasNoOperation

end Sys2Proof.Machine
end

