-- ==== Sys2Proof/Machine/Logical.lean ====
section
/-!
DEFINITION. AND, OR, XOR, NOT (41_logical.md R67 to R71).
-/

namespace Sys2Proof.Machine

/-- AND (R68). -/
def andUnder (c : Config) (rd rs rt : Reg) (s : State) : Answer :=
  let a := s.readReg rs
  let b := s.readReg rt
  .next (s.writeResult c .logic rd a b (a &&& b))

def execAnd (rd rs rt : Reg) (s : State) : Answer := andUnder config rd rs rt s

/-- OR (R69). -/
def orUnder (c : Config) (rd rs rt : Reg) (s : State) : Answer :=
  let a := s.readReg rs
  let b := s.readReg rt
  .next (s.writeResult c .logic rd a b (a ||| b))

def execOr (rd rs rt : Reg) (s : State) : Answer := orUnder config rd rs rt s

/-- XOR (R70). -/
def xorUnder (c : Config) (rd rs rt : Reg) (s : State) : Answer :=
  let a := s.readReg rs
  let b := s.readReg rt
  .next (s.writeResult c .logic rd a b (a ^^^ b))

def execXor (rd rs rt : Reg) (s : State) : Answer := xorUnder config rd rs rt s

/-- NOT (R71): one source; FLAGS is given 0x0000 for the second operand. -/
def notUnder (c : Config) (rd rs : Reg) (s : State) : Answer :=
  let a := s.readReg rs
  .next (s.writeResult c .logic rd a 0x0000#16 (~~~a))

def execNot (rd rs : Reg) (s : State) : Answer := notUnder config rd rs s

end Sys2Proof.Machine
end

