-- ==== Sys2Proof/Machine/MemoryOps.lean ====
section
/-!
DEFINITION. LOAD, STORE, LOADI (43_memory_ops.md R75 to R78).
-/

namespace Sys2Proof.Machine

/-- LOAD (R76): the read is made and checked also when rd is R0 (D21). -/
def loadUnder (c : Config) (rd rs : Reg) (off4 : BitVec 4) (s : State) : Answer :=
  let ea := effectiveAddress s rs off4
  match checkData c ea with
  | some f => raise f
  | none => .next (s.writeReg rd (s.loadWord ea)).nextPc

def execLoad (rd rs : Reg) (off4 : BitVec 4) (s : State) : Answer := loadUnder config rd rs off4 s

/-- STORE (R77): the alignment check comes before the self-modifying-code check (R97). -/
def storeUnder (c : Config) (rd rs : Reg) (off4 : BitVec 4) (s : State) : Answer :=
  let ea := effectiveAddress s rs off4
  match checkData c ea with
  | some f => raise f
  | none =>
    if hitsWindow c.smcWindow s.pc ea then raise (.smcHazard ea)
    else .next (s.storeWord ea (s.readReg rd)).nextPc

def execStore (rd rs : Reg) (off4 : BitVec 4) (s : State) : Answer := storeUnder config rd rs off4 s

/-- LOADI (R78): no memory access, no flags. -/
def execLoadi (rd : Reg) (imm8 : BitVec 8) (s : State) : Answer :=
  .next (s.writeReg rd (immOperand imm8)).nextPc

end Sys2Proof.Machine
end

