-- ==== Sys2Proof/Machine/Shift.lean ====
section
/-!
DEFINITION. SHL, SHR (42_shift.md R72 to R74). The amount is the whole register x[rt].
-/

namespace Sys2Proof.Machine

/-- The shape of both shifts: find the places, or raise ShiftRange; then write the shifted value. -/
def shiftUnder (c : Config) (shifted : Word → Nat → Word) (rd rs rt : Reg) (s : State) : Answer :=
  let a := s.readReg rs
  let b := s.readReg rt
  match shiftPlaces c.shiftOver b with
  | .error f => raise f
  | .ok n => .next (s.writeResult c .shift rd a b (shifted a n))

/-- SHL (R73). -/
def shlUnder (c : Config) (rd rs rt : Reg) (s : State) : Answer := shiftUnder c shiftLeft rd rs rt s

def execShl (rd rs rt : Reg) (s : State) : Answer := shlUnder config rd rs rt s

/-- SHR (R74). -/
def shrUnder (c : Config) (rd rs rt : Reg) (s : State) : Answer :=
  shiftUnder c (shiftRight c.shrFill) rd rs rt s

def execShr (rd rs rt : Reg) (s : State) : Answer := shrUnder config rd rs rt s

end Sys2Proof.Machine
end

