-- ==== Sys2Proof/Machine/Dispatch.lean ====
section
/-!
DEFINITION. Which meaning each instruction has: one arm per constructor of `Instr`.
-/

namespace Sys2Proof.Machine

def exec (i : Instr) (s : State) : Host.Outcome State Fault Refusal :=
  match i with
  | .nop => Sys2Proof.Machine.execNop s
  | .add rd rs rt => Sys2Proof.Machine.execAdd rd rs rt s
  | .addi rd imm8 => Sys2Proof.Machine.execAddi rd imm8 s
  | .sub rd rs rt => Sys2Proof.Machine.execSub rd rs rt s
  | .and rd rs rt => Sys2Proof.Machine.execAnd rd rs rt s
  | .or rd rs rt => Sys2Proof.Machine.execOr rd rs rt s
  | .xor rd rs rt => Sys2Proof.Machine.execXor rd rs rt s
  | .not rd rs => Sys2Proof.Machine.execNot rd rs s
  | .shl rd rs rt => Sys2Proof.Machine.execShl rd rs rt s
  | .shr rd rs rt => Sys2Proof.Machine.execShr rd rs rt s
  | .load rd rs off4 => Sys2Proof.Machine.execLoad rd rs off4 s
  | .store rd rs off4 => Sys2Proof.Machine.execStore rd rs off4 s
  | .loadi rd imm8 => Sys2Proof.Machine.execLoadi rd imm8 s
  | .jmp addr12 => Sys2Proof.Machine.execJmp addr12 s
  | .beq rc off8 => Sys2Proof.Machine.execBeq rc off8 s
  | .bne rc off8 => Sys2Proof.Machine.execBne rc off8 s
  | .halt => Sys2Proof.Machine.execHalt s
  | .call xx => Sys2Proof.Machine.execCall xx s
  | .ret xx => Sys2Proof.Machine.execRet xx s
  | .push xx => Sys2Proof.Machine.execPush xx s
  | .pop xx => Sys2Proof.Machine.execPop xx s

end Sys2Proof.Machine
end

