-- ==== Sys2Proof/Machine/Step.lean ====
section
/-!
DEFINITION. The step of the machine, and the placing of an instruction where it fetches next.
-/

namespace Sys2Proof.Machine

/-- One step of the core (30_encoding.md R48). -/
def step (s : State) : Host.Outcome State Fault Refusal := cycle decode exec s

/-- `s` with the table's word `w` of `nbits` bits (the bits above them zero) where step fetches its
next instruction, ready to run it (log 6). -/
def State.withFetchWord (s : State) (nbits w : Nat) : State :=
  s.readyToRun (BitVec.ofNat 16 (w % 2 ^ nbits))

end Sys2Proof.Machine
end

