-- ==== Sys2Proof/Machine/Assembler.lean ====
section
/-!
DEFINITION. The assembler (30_encoding.md R54 to R61): program text to words, or a refusal by name
(60_exceptions.md R94). The machine never calls it. It accepts the spellings the source shows and
refuses others (D25; log 28).
-/

namespace Sys2Proof.Machine

/-- The special register names of R57. They have no register number. -/
inductive SpecialName where
  | pc
  | sp
  | lr
  | sr
  deriving DecidableEq, Repr

/-- An operand as written: a register name (R56), a special name (R57), a number (R58), or a label. -/
inductive Operand where
  | reg (r : Reg)
  | special (n : SpecialName)
  | num (v : Int)
  | label (name : List Char)
  deriving DecidableEq, Repr

/-- The mnemonics of R55. -/
inductive Mnemonic where
  | nop | add | addi | sub | and | or | xor | not | shl | shr
  | load | store | loadi | jmp | beq | bne | halt
  | call | ret | push | pop
  deriving DecidableEq, Repr

/-- What the assembler refuses (R61, R94). Each refusal gives no machine code, and is safe. -/
inductive AsmRefusal where
  /-- A line that is not `LABEL: MNEMONIC operands ; comment` (R54). -/
  | malformedLine (text : List Char)
  /-- An unknown mnemonic (R61). -/
  | unknownMnemonic (name : List Char)
  /-- CALL, RET, PUSH or POP: no encoding in the spec (R61, R94; 45_extended.md R84 to R87). -/
  | noEncodingFor (m : Mnemonic)
  /-- An operand that is no register, special name, literal or label (R55 to R58). -/
  | badOperand (text : List Char)
  /-- A special register in a register field (R57, R61). -/
  | specialRegister (n : SpecialName)
  /-- An operand of another kind than the format has there (R55). -/
  | operandKind (m : Mnemonic)
  /-- An operand count that differs from R55 (R61). -/
  | operandCount (m : Mnemonic)
  /-- A number out of the range of R58 (R61). -/
  | outOfRange (v : Int)
  /-- A branch label out of reach (R59, R61). -/
  | branchReach (label : List Char)
  /-- A JMP label above 0x0FFF (R59, R61). -/
  | jumpReach (label : List Char)
  /-- A label no line defines (R61). -/
  | undefinedLabel (label : List Char)
  /-- A label two lines define (R61). -/
  | doublyDefinedLabel (label : List Char)
  /-- An instruction no word decodes to: BNE RF, 0xFF is HALT's word (44_control_flow.md R82), and
  under EXT_SPACE = refuse BNE R0 to BNE R3 (R47). -/
  | notEncodable (i : Instr)
  /-- An instruction past address 0xFFFF (20_memory.md R22; log 32). -/
  | programTooLong
  deriving DecidableEq, Repr

/-! ### Names and literals -/

/-- The mnemonics as the source writes them (R55). -/
def mnemonicTable : List (String × Mnemonic) :=
  [("NOP", .nop), ("ADD", .add), ("ADDI", .addi), ("SUB", .sub), ("AND", .and), ("OR", .or),
   ("XOR", .xor), ("NOT", .not), ("SHL", .shl), ("SHR", .shr), ("LOAD", .load)] ++
  [("STORE", .store), ("LOADI", .loadi), ("JMP", .jmp), ("BEQ", .beq), ("BNE", .bne),
   ("HALT", .halt), ("CALL", .call), ("RET", .ret), ("PUSH", .push), ("POP", .pop)]

/-- The mnemonic a name stands for. -/
def mnemonicOf (name : List Char) : Option Mnemonic :=
  (mnemonicTable.find? (fun p => p.1.toList == name)).map (·.2)

/-- The value of a digit `0` to `9` or `A` to `F`. -/
def digitValue (c : Char) : Option Nat :=
  if '0' ≤ c ∧ c ≤ '9' then some (c.toNat - '0'.toNat)
  else if 'A' ≤ c ∧ c ≤ 'F' then some (c.toNat - 'A'.toNat + 10)
  else none

/-- The number that digits of a base spell after `acc`. -/
def digitsFrom (base acc : Nat) (cs : List Char) : Option Nat :=
  match cs with
  | [] => some acc
  | c :: rest =>
    match digitValue c with
    | some d => if d < base then digitsFrom base (acc * base + d) rest else none
    | none => none

/-- The number that one or more digits of a base spell. -/
def digits (base : Nat) (cs : List Char) : Option Nat :=
  match cs with
  | [] => none
  | _ => digitsFrom base 0 cs

/-- A literal (R58): `42`, `0x2A` or `0h2A`, `0b101010`. Any number of digits is read, leading zeros
among them, and a literal without a prefix is decimal whatever it begins with (`042` is 42); the spec
shows no decimal with a leading zero. DESIGN CHOICE, unsafe: log 36. -/
def naturalOf (cs : List Char) : Option Nat :=
  match cs with
  | '0' :: 'x' :: ds => digits 16 ds
  | '0' :: 'h' :: ds => digits 16 ds
  | '0' :: 'b' :: ds => digits 2 ds
  | _ => digits 10 cs

/-- A literal with an optional minus sign: R58 accepts negative values and shows no spelling of one
(log 28). -/
def integerOf (cs : List Char) : Option Int :=
  match cs with
  | '-' :: ds => (naturalOf ds).map (fun n => -(n : Int))
  | _ => (naturalOf cs).map (fun n => (n : Int))

/-- A register name (R56): R0 to RF, or R10 to R15. -/
def registerOf (cs : List Char) : Option Reg :=
  match cs with
  | ['R', d] => (digitValue d).map (Fin.ofNat 16)
  | ['R', '1', d] =>
    match digits 10 [d] with
    | some n => if n < 6 then some (Fin.ofNat 16 (10 + n)) else none
    | none => none
  | _ => none

/-- A special register name (R57). -/
def specialOf (cs : List Char) : Option SpecialName :=
  if cs = ['P', 'C'] then some .pc
  else if cs = ['S', 'P'] then some .sp
  else if cs = ['L', 'R'] then some .lr
  else if cs = ['S', 'R'] then some .sr
  else none

/-- Whether a character is a lower-case letter. -/
def isLower (c : Char) : Bool := decide ('a' ≤ c ∧ c ≤ 'z')

/-- Whether a name is spelled as the source spells labels: a lower-case letter, then lower-case
letters, digits or underscores (R54, D25; log 28). -/
def isLabel (cs : List Char) : Bool :=
  match cs with
  | [] => false
  | c :: rest => isLower c && rest.all (fun d => isLower d || d.isDigit || d == '_')

/-- An operand as written (R55 to R59). -/
def operandOf (cs : List Char) : Except AsmRefusal Operand :=
  match registerOf cs with
  | some r => .ok (.reg r)
  | none =>
    match specialOf cs with
    | some n => .ok (.special n)
    | none =>
      match integerOf cs with
      | some v => .ok (.num v)
      | none => if isLabel cs then .ok (.label cs) else .error (.badOperand cs)

/-! ### Lines (R54) -/

/-- One line: a label, a mnemonic with its operands, or both, or neither. -/
structure Line where
  label : Option (List Char)
  op    : Option (List Char × List Operand)
  deriving DecidableEq, Repr

inductive Token where
  | word (cs : List Char)
  | colon
  | comma
  deriving DecidableEq, Repr

/-- Put the word collected so far, if any, before the tokens that follow it. -/
def flush (acc : List Char) (rest : List Token) : List Token :=
  match acc with
  | [] => rest
  | _ => .word acc.reverse :: rest

/-- The tokens of a line up to its comment; `acc` is the word being read, backwards. White space may
stand, or not, on either side of a colon or a comma (`loop : ADD R1 , R2 , R3`, `loop:NOP`), where the
spec shows one spelling. DESIGN CHOICE, unsafe: log 37. -/
def tokenise (cs acc : List Char) : List Token :=
  match cs with
  | [] => flush acc []
  | c :: rest =>
    if c = ';' then flush acc []
    else if c = ' ' ∨ c = '\t' ∨ c = '\r' then flush acc (tokenise rest [])
    else if c = ':' then flush acc (.colon :: tokenise rest [])
    else if c = ',' then flush acc (.comma :: tokenise rest [])
    else tokenise rest (c :: acc)

/-- Words separated by commas. -/
def operandWords (ts : List Token) : Option (List (List Char)) :=
  match ts with
  | [] => some []
  | [.word w] => some [w]
  | .word w :: .comma :: t :: rest => (operandWords (t :: rest)).map (w :: ·)
  | _ => none

/-- Every operand of a list. -/
def operandsOf (ws : List (List Char)) : Except AsmRefusal (List Operand) :=
  match ws with
  | [] => .ok []
  | w :: rest =>
    match operandOf w with
    | .error e => .error e
    | .ok o =>
      match operandsOf rest with
      | .error e => .error e
      | .ok os => .ok (o :: os)

/-- The part of a line after its label. -/
def statementOf (text : List Char) (ts : List Token) :
    Except AsmRefusal (Option (List Char × List Operand)) :=
  match ts with
  | [] => .ok none
  | .word m :: rest =>
    match operandWords rest with
    | none => .error (.malformedLine text)
    | some ws => (operandsOf ws).map (fun os => some (m, os))
  | _ => .error (.malformedLine text)

/-- One line of a program (R54). -/
def lineOf (text : List Char) : Except AsmRefusal Line :=
  match tokenise text [] with
  | .word l :: .colon :: rest =>
    if isLabel l then (statementOf text rest).map (fun op => ⟨some l, op⟩)
    else .error (.malformedLine text)
  | ts => (statementOf text ts).map (fun op => ⟨none, op⟩)

/-- The lines of a text; `acc` is the line being read, backwards. -/
def splitLines (cs acc : List Char) : List (List Char) :=
  match cs with
  | [] => [acc.reverse]
  | c :: rest => if c = '\n' then acc.reverse :: splitLines rest [] else splitLines rest (c :: acc)

/-- Every line of a list. -/
def linesOf (texts : List (List Char)) : Except AsmRefusal (List Line) :=
  match texts with
  | [] => .ok []
  | t :: rest =>
    match lineOf t with
    | .error e => .error e
    | .ok l =>
      match linesOf rest with
      | .error e => .error e
      | .ok ls => .ok (l :: ls)

/-! ### Labels (R59) -/

/-- Each label and the byte address of the instruction that follows it; an instruction takes 2 bytes.
A label that no instruction follows has the address past the last instruction, 0x10000 at most: the
spec leaves that case open. DESIGN CHOICE, unsafe: log 34. -/
def labelsFrom (addr : Nat) (ls : List Line) : List (List Char × Nat) :=
  match ls with
  | [] => []
  | l :: rest =>
    let next := if l.op.isSome then addr + 2 else addr
    match l.label with
    | some n => (n, addr) :: labelsFrom next rest
    | none => labelsFrom next rest

/-- The first label that is defined again later. -/
def doublyDefined (labels : List (List Char × Nat)) : Option (List Char) :=
  match labels with
  | [] => none
  | p :: rest => if rest.any (fun q => q.1 == p.1) then some p.1 else doublyDefined rest

/-- The address of a label. -/
def addressOf (labels : List (List Char × Nat)) (name : List Char) : Except AsmRefusal Nat :=
  match labels.find? (fun p => p.1 == name) with
  | some p => .ok p.2
  | none => .error (.undefinedLabel name)

/-! ### Fields (R58, R59) -/

/-- Imm8 and a numeric Offset: -128 to 255, taken modulo 256; else refused, never truncated (R58). -/
def byteField (v : Int) : Except AsmRefusal (BitVec 8) :=
  if -128 ≤ v ∧ v ≤ 255 then .ok (BitVec.ofInt 8 v) else .error (.outOfRange v)

/-- Off: 0 to 15 (R58). -/
def offField (v : Int) : Except AsmRefusal (BitVec 4) :=
  if 0 ≤ v ∧ v ≤ 15 then .ok (BitVec.ofInt 4 v) else .error (.outOfRange v)

/-- A numeric Addr12: 0 to 0xFFF (R58). -/
def addrField (v : Int) : Except AsmRefusal (BitVec 12) :=
  if 0 ≤ v ∧ v ≤ 0xFFF then .ok (BitVec.ofInt 12 v) else .error (.outOfRange v)

/-- The Offset of a branch at `addr` to the address `target` of a label: their difference modulo 256,
refused unless it is even and -128 to 126 (R59). -/
def branchField (label : List Char) (addr target : Nat) : Except AsmRefusal (BitVec 8) :=
  let d : Int := (target : Int) - (addr : Int)
  if -128 ≤ d ∧ d ≤ 126 ∧ d % 2 = 0 then .ok (BitVec.ofInt 8 d) else .error (.branchReach label)

/-- The Addr12 of a JMP to a label's address: refused above 0x0FFF (R59). -/
def jumpField (label : List Char) (target : Nat) : Except AsmRefusal (BitVec 12) :=
  if target ≤ 0x0FFF then .ok (BitVec.ofNat 12 target) else .error (.jumpReach label)

/-! ### Instructions (R55) -/

/-- A register field (R57). -/
def asReg (m : Mnemonic) (o : Operand) : Except AsmRefusal Reg :=
  match o with
  | .reg r => .ok r
  | .special n => .error (.specialRegister n)
  | .num _ => .error (.operandKind m)
  | .label _ => .error (.operandKind m)

/-- A numeric field. -/
def asNum (m : Mnemonic) (o : Operand) : Except AsmRefusal Int :=
  match o with
  | .num v => .ok v
  | .reg _ => .error (.operandKind m)
  | .special _ => .error (.operandKind m)
  | .label _ => .error (.operandKind m)

/-- `Rd, Rs, Rt`. -/
def threeRegs (m : Mnemonic) (make : Reg → Reg → Reg → Instr) (ops : List Operand) :
    Except AsmRefusal Instr :=
  match ops with
  | [a, b, c] => do return make (← asReg m a) (← asReg m b) (← asReg m c)
  | _ => .error (.operandCount m)

/-- `Rd, Imm8`. -/
def regImm (m : Mnemonic) (make : Reg → BitVec 8 → Instr) (ops : List Operand) :
    Except AsmRefusal Instr :=
  match ops with
  | [a, b] => do return make (← asReg m a) (← byteField (← asNum m b))
  | _ => .error (.operandCount m)

/-- `Rd, Rs, Off`. -/
def regRegOff (m : Mnemonic) (make : Reg → Reg → BitVec 4 → Instr) (ops : List Operand) :
    Except AsmRefusal Instr :=
  match ops with
  | [a, b, c] => do return make (← asReg m a) (← asReg m b) (← offField (← asNum m c))
  | _ => .error (.operandCount m)

/-- `Rc, Offset`, the Offset a number or a label (R44, R59). -/
def regOffset (m : Mnemonic) (labels : List (List Char × Nat)) (addr : Nat)
    (make : Reg → BitVec 8 → Instr) (ops : List Operand) : Except AsmRefusal Instr :=
  match ops with
  | [a, .label l] => do return make (← asReg m a) (← branchField l addr (← addressOf labels l))
  | [a, b] => do return make (← asReg m a) (← byteField (← asNum m b))
  | _ => .error (.operandCount m)

/-- `Addr12`, a number or a label (R59). -/
def jumpOperand (labels : List (List Char × Nat)) (ops : List Operand) : Except AsmRefusal Instr :=
  match ops with
  | [.label l] => do return .jmp (← jumpField l (← addressOf labels l))
  | [a] => do return .jmp (← addrField (← asNum .jmp a))
  | _ => .error (.operandCount .jmp)

/-- No operands. -/
def noOperands (m : Mnemonic) (i : Instr) (ops : List Operand) : Except AsmRefusal Instr :=
  match ops with
  | [] => .ok i
  | _ => .error (.operandCount m)

/-- The instruction a mnemonic and its operands stand for at the address `addr` (R55). CALL, RET,
PUSH and POP are refused whatever their operands (R61, R94). -/
def instrOf (labels : List (List Char × Nat)) (addr : Nat) (m : Mnemonic) (ops : List Operand) :
    Except AsmRefusal Instr :=
  match m with
  | .nop => noOperands .nop .nop ops
  | .add => threeRegs .add .add ops
  | .addi => regImm .addi .addi ops
  | .sub => threeRegs .sub .sub ops
  | .and => threeRegs .and .and ops
  | .or => threeRegs .or .or ops
  | .xor => threeRegs .xor .xor ops
  | .not =>
    match ops with
    | [a, b] => do return .not (← asReg .not a) (← asReg .not b)
    | _ => .error (.operandCount .not)
  | .shl => threeRegs .shl .shl ops
  | .shr => threeRegs .shr .shr ops
  | .load => regRegOff .load .load ops
  | .store => regRegOff .store .store ops
  | .loadi => regImm .loadi .loadi ops
  | .jmp => jumpOperand labels ops
  | .beq => regOffset .beq labels addr .beq ops
  | .bne => regOffset .bne labels addr .bne ops
  | .halt => noOperands .halt .halt ops
  | .call => .error (.noEncodingFor .call)
  | .ret => .error (.noEncodingFor .ret)
  | .push => .error (.noEncodingFor .push)
  | .pop => .error (.noEncodingFor .pop)

/-- The word of one statement at the address `addr`. -/
def wordOf (x : ExtSpace) (labels : List (List Char × Nat)) (addr : Nat)
    (st : List Char × List Operand) : Except AsmRefusal Word :=
  match mnemonicOf st.1 with
  | none => .error (.unknownMnemonic st.1)
  | some m =>
    match instrOf labels addr m st.2 with
    | .error e => .error e
    | .ok i => if i.wellFormed x then .ok (encode i) else .error (.notEncodable i)

/-- The words of the lines, the first instruction at the address `addr`. -/
def wordsFrom (x : ExtSpace) (labels : List (List Char × Nat)) (addr : Nat) (ls : List Line) :
    Except AsmRefusal (List Word) :=
  match ls with
  | [] => .ok []
  | l :: rest =>
    match l.op with
    | none => wordsFrom x labels addr rest
    | some st =>
      match wordOf x labels addr st with
      | .error e => .error e
      | .ok w =>
        if addr + 2 ≤ 65536 then (wordsFrom x labels (addr + 2) rest).map (w :: ·)
        else .error .programTooLong

/-- Assemble a program text at the origin RESET_PC (R54 to R61). Which refusal a text with several
faults is given is open: here the first line that does not parse comes first, then a doubly defined
label, then the first statement that has no word. DESIGN CHOICE, safe: log 35. -/
def assemble (c : Config) (text : List Char) : Except AsmRefusal (List Word) :=
  match linesOf (splitLines text []) with
  | .error e => .error e
  | .ok ls =>
    let labels := labelsFrom c.resetPc.toNat ls
    match doublyDefined labels with
    | some l => .error (.doublyDefinedLabel l)
    | none => wordsFrom c.extSpace labels c.resetPc.toNat ls

end Sys2Proof.Machine
end

