-- ==== Sys2Proof/Machine/Convention.lean ====
section
/-!
DEFINITION. The source's calling convention, as data (45_extended.md R89 to R91). It is a software
convention: no rule of the machine depends on it, and its texts are refused by the assembler.
-/

namespace Sys2Proof.Machine

/-- "First 4 arguments: R1-R4" (R90). Further arguments go on the stack, in an order the source does
not give. -/
def argumentRegisters : List Reg := [1, 2, 3, 4]

/-- "Return value: R1" (R90). -/
def returnRegister : Reg := 1

/-- The prologue's lines (R89): the return address is saved first. -/
def prologue : List String := ["function:", "PUSH LR", "PUSH R1", "PUSH R2"]

/-- The epilogue's lines (R89): restored in the reverse order of saving. -/
def epilogue : List String := ["POP R2", "POP R1", "POP LR", "RET"]

/-- Lines as one text. -/
def textOf (ls : List String) : List Char :=
  match ls with
  | [] => []
  | l :: rest => l.toList ++ '\n' :: textOf rest

end Sys2Proof.Machine
end

