-- ==== Sys2Proof/Machine/Configured.lean ====
section
/-!
DEFINITION. The machine under any setting of the parameters of 00_scope.md R4, so that a claim may
quantify over them. `exec` and `step` are these at `config` (Laws/Step.lean).
-/

namespace Sys2Proof.Machine

/-- The meaning of an instruction under the parameters `c`. -/
def execUnder (c : Config) (i : Instr) (s : State) : Answer :=
  match i with
  | .nop => execNop s
  | .add rd rs rt => addUnder c rd rs rt s
  | .addi rd imm8 => addiUnder c rd imm8 s
  | .sub rd rs rt => subUnder c rd rs rt s
  | .and rd rs rt => andUnder c rd rs rt s
  | .or rd rs rt => orUnder c rd rs rt s
  | .xor rd rs rt => xorUnder c rd rs rt s
  | .not rd rs => notUnder c rd rs s
  | .shl rd rs rt => shlUnder c rd rs rt s
  | .shr rd rs rt => shrUnder c rd rs rt s
  | .load rd rs off4 => loadUnder c rd rs off4 s
  | .store rd rs off4 => storeUnder c rd rs off4 s
  | .loadi rd imm8 => execLoadi rd imm8 s
  | .jmp addr12 => execJmp addr12 s
  | .beq rc off8 => execBeq rc off8 s
  | .bne rc off8 => execBne rc off8 s
  | .halt => execHalt s
  | .call xx => execCall xx s
  | .ret xx => execRet xx s
  | .push xx => execPush xx s
  | .pop xx => execPop xx s

/-- One step under the parameters `c` (30_encoding.md R48). -/
def stepUnder (c : Config) (s : State) : Answer := cycle (decodeUnder c.extSpace) (execUnder c) s

/-- The state after one step under the parameters `c`, any fault recorded (R93, R107). -/
def advanceUnder (c : Config) (s : State) : State := stateAfter s (stepUnder c s)

end Sys2Proof.Machine
end

