-- ==== Sys2Proof/Safety.lean ====
section
/-!
DEFINITION. What claims are stated in: the end of a run (70_reset_and_hazards.md R107, R114), the
invariant of the state, and what an instruction leaves unchanged.
-/

namespace Sys2Proof.Machine

/-! ### Runs (R107, R114) -/

/-- The state after one step, any fault recorded (R93). -/
def advance (s : State) : State := stateAfter s (step s)

/-- The state after `n` steps. -/
def runFor (n : Nat) (s : State) : State := advance^[n] s

/-- The successful end of a run: a HALT was executed (R107). -/
def State.succeeded (s : State) : Bool := s.halted && s.fault.isNone

/-- The unsuccessful end of a run (R107). -/
def State.failed (s : State) : Bool := s.fault.isSome

/-- The core will take a step (R48). -/
def State.running (s : State) : Bool := !s.halted && s.fault.isNone

/-- The run from `s` ends successfully, within some number of steps. -/
def EndsInSuccess (s : State) : Prop := ∃ n, (runFor n s).succeeded = true

/-- The run from `s` ends in a fault. -/
def EndsInFault (s : State) : Prop := ∃ n, (runFor n s).failed = true

/-- The run from `s` is infinite: a hang (R114). -/
def Hangs (s : State) : Prop := ∀ n, (runFor n s).running = true

/-! ### The invariant -/

/-- The memory is in its canonical form, the reserved bits of sr are zero (10_state.md R13), and the
machine has not both halted and faulted (R107). -/
def State.Inv (s : State) : Prop :=
  s.mem.wf ∧ s.sr.extractLsb' 4 12 = 0 ∧ ¬(s.halted = true ∧ s.fault.isSome = true)

/-! ### Frames -/

/-- Every byte reads as before. -/
def SameMemory (s t : State) : Prop := ∀ a : Word, t.mem.read a = s.mem.read a

/-- Every general register reads as before, but `rd`. -/
def SameRegsBut (rd : Reg) (s t : State) : Prop := ∀ r, r ≠ rd → t.readReg r = s.readReg r

/-- Every general register reads as before. -/
def SameRegs (s t : State) : Prop := ∀ r, t.readReg r = s.readReg r

/-- sp and lr, and whether the machine has halted or faulted, are as before. -/
def SameSpecials (s t : State) : Prop :=
  t.sp = s.sp ∧ t.lr = s.lr ∧ t.halted = s.halted ∧ t.fault = s.fault

/-- `rd` now holds `v`, every other register what it held; R0 still reads as 0x0000 (R9). -/
def WroteReg (rd : Reg) (v : Word) (s t : State) : Prop :=
  t.readReg rd = (if rd = 0 then 0#16 else v) ∧ SameRegsBut rd s t

/-- The four flags are `z n c v`, and the other bits of sr are as before (R13). -/
def FlagsAre (z n c v : Prop) (s t : State) : Prop :=
  (flagZ t.sr = true ↔ z) ∧ (flagN t.sr = true ↔ n) ∧ (flagC t.sr = true ↔ c) ∧
    (flagV t.sr = true ↔ v) ∧ t.sr.extractLsb' 4 12 = s.sr.extractLsb' 4 12

/-- What an instruction that computes into `rd` leaves: every other register, every byte of memory,
sp and lr; the pc is advanced (R17). -/
def ComputeFrame (rd : Reg) (s t : State) : Prop :=
  SameRegsBut rd s t ∧ SameMemory s t ∧ SameSpecials s t ∧ t.pc = s.pc + 2#16

/-! ### Comparing runs -/

/-- The state after `n` steps under the parameters `c`. -/
def runUnder (c : Config) (n : Nat) (s : State) : State := (advanceUnder c)^[n] s

/-- The two states agree in everything but sr. -/
def SameButSr (s t : State) : Prop := t = { s with sr := t.sr }

/-- The two configurations agree in everything but the FLAGS parameter. -/
def SameButFlags (c d : Config) : Prop := d = { c with flags := d.flags }

/-! ### Who writes what (10_state.md R15, R17) -/

/-- The general register an instruction names as its destination. -/
def destination : Instr → Option Reg
  | .add rd _ _ => some rd
  | .addi rd _ => some rd
  | .sub rd _ _ => some rd
  | .and rd _ _ => some rd
  | .or rd _ _ => some rd
  | .xor rd _ _ => some rd
  | .not rd _ => some rd
  | .shl rd _ _ => some rd
  | .shr rd _ _ => some rd
  | .load rd _ _ => some rd
  | .loadi rd _ => some rd
  | .nop => none
  | .store _ _ _ => none
  | .jmp _ => none
  | .beq _ _ => none
  | .bne _ _ => none
  | .halt => none
  | .call _ => none
  | .ret _ => none
  | .push _ => none
  | .pop _ => none

/-- The instructions that write memory. -/
def isStore : Instr → Bool
  | .store _ _ _ => true
  | .nop => false
  | .add _ _ _ => false
  | .addi _ _ => false
  | .sub _ _ _ => false
  | .and _ _ _ => false
  | .or _ _ _ => false
  | .xor _ _ _ => false
  | .not _ _ => false
  | .shl _ _ _ => false
  | .shr _ _ _ => false
  | .load _ _ _ => false
  | .loadi _ _ => false
  | .jmp _ => false
  | .beq _ _ => false
  | .bne _ _ => false
  | .halt => false
  | .call _ => false
  | .ret _ => false
  | .push _ => false
  | .pop _ => false

/-- The instructions that write the flags (10_state.md R15). -/
def writesFlags : Instr → Bool
  | .add _ _ _ => true
  | .addi _ _ => true
  | .sub _ _ _ => true
  | .and _ _ _ => true
  | .or _ _ _ => true
  | .xor _ _ _ => true
  | .not _ _ => true
  | .shl _ _ _ => true
  | .shr _ _ _ => true
  | .nop => false
  | .load _ _ _ => false
  | .store _ _ _ => false
  | .loadi _ _ => false
  | .jmp _ => false
  | .beq _ _ => false
  | .bne _ _ => false
  | .halt => false
  | .call _ => false
  | .ret _ => false
  | .push _ => false
  | .pop _ => false

/-- Whether the instruction, run in this state, transfers control (44_control_flow.md R80 to R82), or
stops the machine, after which there is no next instruction (HALT). A branch that is not taken does
neither. -/
def leavesSequence (s : State) : Instr → Bool
  | .jmp _ => true
  | .beq rc _ => s.readReg rc == 0#16
  | .bne rc _ => s.readReg rc != 0#16
  | .halt => true
  | .nop => false
  | .add _ _ _ => false
  | .addi _ _ => false
  | .sub _ _ _ => false
  | .and _ _ _ => false
  | .or _ _ _ => false
  | .xor _ _ _ => false
  | .not _ _ => false
  | .shl _ _ _ => false
  | .shr _ _ _ => false
  | .load _ _ _ => false
  | .store _ _ _ => false
  | .loadi _ _ => false
  | .call _ => false
  | .ret _ => false
  | .push _ => false
  | .pop _ => false

end Sys2Proof.Machine
end

