-- ==== Sys2Proof/Certificates/Slice0/Obligations.lean ====
section
/-!
DEFINITION. The statements for the provers. A statement whose docstring names a decision D<n> rests
on that choice of the spec (spec/92_eei_decisions.md), not on the source; the log entry that follows
it is named with it.
-/

open Sys2Proof Sys2Proof.Machine

/-! ### Memory primitives -/

/-- R25: MemRead at an even address gives `mem[addr + 1] ++ mem[addr]`; the second address does not
wrap. (It is a function of the state and gives no state back, so it changes none.) -/
def Obligations.MemReadIsLittleEndian : Prop :=
  ∀ (s : State) (a : Word), a.toNat % 2 = 0 →
    (s.loadWord a).toNat = (s.mem.read a).toNat + 256 * (s.mem.read (a + 1#16)).toNat ∧
    (a + 1#16).toNat = a.toNat + 1

/-- R26: MemWrite sets the two bytes, and changes no other byte and no register. -/
def Obligations.MemWriteChangesTwoBytes : Prop :=
  ∀ (s : State) (a v : Word), a.toNat % 2 = 0 →
    ((s.storeWord a v).mem.read a).toNat = v.toNat % 256 ∧
    ((s.storeWord a v).mem.read (a + 1#16)).toNat = v.toNat / 256 ∧
    (∀ k : Word, k ≠ a → k ≠ a + 1#16 → (s.storeWord a v).mem.read k = s.mem.read k) ∧
    SameRegs s (s.storeWord a v) ∧ SameSpecials s (s.storeWord a v) ∧
    (s.storeWord a v).pc = s.pc ∧ (s.storeWord a v).sr = s.sr

/-- Two canonical memories that read alike at every address are the same list. Rests on the model's
representation of memory (log 3). -/
def Obligations.CanonicalMemoriesThatReadAlikeAreEqual : Prop :=
  ∀ m n : Memory, m.wf → n.wf → (∀ a : Word, m.read a = n.read a) → m = n

/-! ### Encoding -/

/-- The word whose four digits are these. -/
def Sys2Proof.Machine.digitsAre (w : Word) (op d2 d3 d4 : Nat) : Prop :=
  w.toNat = op * 4096 + d2 * 256 + d3 * 16 + d4

/-- R39: every operand of a decoded instruction is the field of its format. The four extended
mnemonics are no decoded instructions. -/
def Obligations.DecodedOperandsAreTheWordsFields : Prop :=
  ∀ (w : Word) (i : Instr), decode w = .ok i →
    match i with
    | .nop => w.toNat / 4096 = 0
    | .add rd rs rt => digitsAre w 1 rd rs rt
    | .addi rd imm8 => digitsAre w 2 rd (imm8.toNat / 16) (imm8.toNat % 16)
    | .sub rd rs rt => digitsAre w 3 rd rs rt
    | .and rd rs rt => digitsAre w 4 rd rs rt
    | .or rd rs rt => digitsAre w 5 rd rs rt
    | .xor rd rs rt => digitsAre w 6 rd rs rt
    | .not rd rs => ∃ rt < 16, digitsAre w 7 rd rs rt
    | .shl rd rs rt => digitsAre w 8 rd rs rt
    | .shr rd rs rt => digitsAre w 9 rd rs rt
    | .load rd rs off4 => digitsAre w 10 rd rs off4.toNat
    | .store rd rs off4 => digitsAre w 11 rd rs off4.toNat
    | .loadi rd imm8 => digitsAre w 12 rd (imm8.toNat / 16) (imm8.toNat % 16)
    | .jmp addr12 => w.toNat = 13 * 4096 + addr12.toNat
    | .beq rc off8 => digitsAre w 14 rc (off8.toNat / 16) (off8.toNat % 16)
    | .bne rc off8 => digitsAre w 15 rc (off8.toNat / 16) (off8.toNat % 16)
    | .halt => digitsAre w 15 15 15 15
    | .call _ => True
    | .ret _ => True
    | .push _ => True
    | .pop _ => True

/-- R38: an instruction is one little-endian word, never fewer bytes, and the next one is at pc + 2
unless control is transferred: after a branch that is not taken too. (After HALT there is no next
one.) -/
def Obligations.EveryInstructionIsOneWord : Prop :=
  (∀ bs : List Byte, bs.length < 2 → decodeBytes bs = .error .truncated) ∧
  (∀ (lo hi : Byte) (rest rest' : List Byte) (i : Instr),
    decodeBytes (lo :: hi :: rest) = .ok (i, rest') ↔ decode (hi ++ lo) = .ok i ∧ rest' = rest) ∧
  (∀ (s t : State) (i : Instr), s.running = true → s.pc.toNat % 2 = 0 → decode s.fetch = .ok i →
    leavesSequence s i = false → step s = .next t → t.pc = s.pc + 2#16)

/-- Decode of encode gives an instruction back exactly when it is well formed, under both settings
of EXT_SPACE: no bit of an encoding is dropped. The 0xF space is D1 (log 29); spare bits are D9. -/
def Obligations.DecodeOfEncodeIsTheInstruction : Prop :=
  ∀ (x : ExtSpace) (i : Instr), decodeUnder x (encode i) = .ok i ↔ i.wellFormed x = true

/-- Decode agrees with the opcode map: the first row of the table a word selects, HALT's row first,
has the mnemonic of the decoded instruction. The 0xF rows are D1 (log 29). -/
def Obligations.DecodeFollowsTheOpcodeMap : Prop :=
  ∀ (w : Word) (i : Instr), decode w = .ok i →
    ∃ r, rowOf w = some r ∧ r.name = i.mnemonic

/-- The setting EXT_SPACE = refuse refuses exactly the 1,024 contested words, decodes every other
word as the default does, and the default refuses none (D1, log 29). -/
def Obligations.RefuseSettingRefusesTheContestedWords : Prop :=
  ∀ w : Word,
    (decodeUnder .refuse w = .error (.refused w) ↔ 0xF000 ≤ w.toNat ∧ w.toNat ≤ 0xF3FF) ∧
    (¬(0xF000 ≤ w.toNat ∧ w.toNat ≤ 0xF3FF) → decodeUnder .refuse w = decodeUnder .bne w) ∧
    ∃ i, decodeUnder .bne w = .ok i

/-- CALL, RET, PUSH and POP have no operation: each is refused by name (D1, log 5), and no word
decodes to one. -/
def Obligations.ExtendedOperationsAreRefused : Prop :=
  (∀ (xx : BitVec 8) (s : State),
    exec (.call xx) s = .refused .callHasNoOperation ∧
    exec (.ret xx) s = .refused .retHasNoOperation ∧
    exec (.push xx) s = .refused .pushHasNoOperation ∧
    exec (.pop xx) s = .refused .popHasNoOperation) ∧
  (∀ (x : ExtSpace) (w : Word) (xx : BitVec 8),
    decodeUnder x w ≠ .ok (.call xx) ∧ decodeUnder x w ≠ .ok (.ret xx) ∧
    decodeUnder x w ≠ .ok (.push xx) ∧ decodeUnder x w ≠ .ok (.pop xx))

/-- The words the source writes out bit by bit or in hexadecimal decode to what it says they are. -/
def Obligations.SourceWordsDecode : Prop :=
  decode 0b0001001100010010#16 = .ok (.add 3 1 2) ∧
  decode 0b1100010101000010#16 = .ok (.loadi 5 0x42#8) ∧
  decode 0b1010001100100100#16 = .ok (.load 3 2 0x4#4) ∧
  decode 0x2342#16 = .ok (.addi 3 0x42#8) ∧
  decode 0xFFFF#16 = .ok .halt

/-! ### The step -/

/-- A machine that has neither halted nor faulted, at an even pc whose two bytes decode to `i`, does
exactly `i`: a step adds nothing around the instruction's meaning (10_state.md R10: an instruction
sees its own address in pc). -/
def Obligations.StepRunsTheDecodedInstruction : Prop :=
  ∀ (s : State) (i : Instr), s.running = true → s.pc.toNat % 2 = 0 →
    decode (s.mem.read (s.pc + 1#16) ++ s.mem.read s.pc) = .ok i → step s = exec i s

/-- A step at an odd pc raises MisalignedFetch(pc), and nothing but the recorded fault changes (D6;
log 11). -/
def Obligations.StepAtAnOddPcFaults : Prop :=
  ∀ s : State, s.running = true → s.pc.toNat % 2 = 1 →
    step s = .fault (.misalignedFetch s.pc) ∧
    advance s = { s with fault := some (.misalignedFetch s.pc) }

/-- A word placed where the next instruction is fetched is the instruction that runs next, whatever
the state was (the model's own operation: log 6). -/
def Obligations.PlacedWordRunsNext : Prop :=
  ∀ (s : State) (w : Word) (i : Instr), decode w = .ok i →
    step (s.withFetchWord 16 w.toNat) = exec i (s.withFetchWord 16 w.toNat) ∧
    (s.running = true → s.pc.toNat % 2 = 0 →
      (s.withFetchWord 16 w.toNat) = { s with mem := s.mem.writeWord s.pc w })

/-- A state that has halted or faulted is left by no number of steps (D11, D13; log 4). -/
def Obligations.TerminalStatesAreFinal : Prop :=
  ∀ s : State, s.running = false → ∀ n, runFor n s = s

/-- A step that raises a fault, whichever of the five and whatever the parameters, changes nothing but
the fault component, is the last, and is in no successful run (D13; log 4). -/
def Obligations.AFaultChangesNothingAndEndsTheRun : Prop :=
  (∀ (c : Config) (s : State) (f : Fault), stepUnder c s = .fault f →
    advanceUnder c s = { s with fault := some f } ∧
    (∀ n, runUnder c n (advanceUnder c s) = advanceUnder c s) ∧
    ∀ n, (runUnder c n s).succeeded = false) ∧
  (∀ (s : State) (f : Fault), step s = .fault f →
    advance s = { s with fault := some f } ∧
    (∀ n, runFor n (advance s) = advance s) ∧ ¬EndsInSuccess (advance s))

/-- The faults of the running machine are the two of the fault table that are always possible, and
they are raised exactly where it says (D5, D6, D13; log 10, log 11). -/
def Obligations.FaultsAreExactlyTheTwoAlwaysPossible : Prop :=
  ∀ (s : State) (f : Fault), s.running = true →
    (step s = .fault f ↔
      (s.pc.toNat % 2 = 1 ∧ f = .misalignedFetch s.pc) ∨
      (s.pc.toNat % 2 = 0 ∧ ∃ rd rs off4,
        (decode s.fetch = .ok (.load rd rs off4) ∨ decode s.fetch = .ok (.store rd rs off4)) ∧
        (effectiveAddress s rs off4).toNat % 2 = 1 ∧
        f = .misalignedData (effectiveAddress s rs off4)))

/-- The fault table under any parameters: a running machine raises a fault exactly where the table
says, in the order of its checks. An odd pc comes first; then a contested word under EXT_SPACE =
refuse; then, of the decoded instruction, an odd data address, before the window of SMC_WINDOW; and an
amount of 16 or more under SHIFT_OVER = fault (D1, D5, D6, D8, D10, D13, D14; log 10, log 11,
log 13, log 15, log 18, log 19, log 29). -/
def Obligations.FaultsAreExactlyTheTableUnderAnyParameters : Prop :=
  ∀ (c : Config) (s : State) (f : Fault), s.running = true →
    (stepUnder c s = .fault f ↔
      (s.pc.toNat % 2 = 1 ∧ f = .misalignedFetch s.pc) ∨
      (s.pc.toNat % 2 = 0 ∧
        ((c.extSpace = .refuse ∧ 0xF000 ≤ s.fetch.toNat ∧ s.fetch.toNat ≤ 0xF3FF ∧
            f = .refusedEncoding s.fetch) ∨
          (∃ rd rs off4,
            (decodeUnder c.extSpace s.fetch = .ok (.load rd rs off4) ∨
              decodeUnder c.extSpace s.fetch = .ok (.store rd rs off4)) ∧
            (effectiveAddress s rs off4).toNat % 2 = 1 ∧
            f = .misalignedData (effectiveAddress s rs off4)) ∨
          (∃ rd rs off4 j, decodeUnder c.extSpace s.fetch = .ok (.store rd rs off4) ∧
            (effectiveAddress s rs off4).toNat % 2 = 0 ∧ 1 ≤ j ∧ j ≤ c.smcWindow ∧
            effectiveAddress s rs off4 = s.pc + BitVec.ofNat 16 (2 * j) ∧
            f = .smcHazard (effectiveAddress s rs off4)) ∨
          (∃ rd rs rt,
            (decodeUnder c.extSpace s.fetch = .ok (.shl rd rs rt) ∨
              decodeUnder c.extSpace s.fetch = .ok (.shr rd rs rt)) ∧
            c.shiftOver = .fault ∧ 16 ≤ (s.readReg rt).toNat ∧
            f = .shiftRange (s.readReg rt)))))

/-- No step is refused, whatever the parameters: it is a next state or a fault. No word decodes to
CALL, RET, PUSH or POP, the only instructions that are refused (D1; log 5, log 29). Of a halted or
faulted machine, which by the spec takes no step, the answer is the model's choice (log 4). -/
def Obligations.NoStepIsRefused : Prop :=
  ∀ (c : Config) (s : State), (∃ t, stepUnder c s = .next t) ∨ (∃ f, stepUnder c s = .fault f)

/-- An odd pc can arise only from a JMP with an odd Addr12 or a taken branch with an odd Offset. -/
def Obligations.AnOddPcComesFromATransfer : Prop :=
  ∀ s t : State, s.running = true → step s = .next t → t.pc.toNat % 2 = 1 →
    (∃ addr12, decode s.fetch = .ok (.jmp addr12) ∧ addr12.toNat % 2 = 1) ∨
    (∃ rc off8, decode s.fetch = .ok (.beq rc off8) ∧ s.readReg rc = 0#16 ∧ off8.toNat % 2 = 1) ∨
    (∃ rc off8, decode s.fetch = .ok (.bne rc off8) ∧ s.readReg rc ≠ 0#16 ∧ off8.toNat % 2 = 1)

/-! ### Arithmetic -/

/-- R62: NOP, ADD, ADDI and SUB complete in every state; the sum or difference is taken modulo 2^16
of the sources as they were; a write to R0 is discarded; no memory changes. -/
def Obligations.ArithmeticWrapsModulo : Prop :=
  ∀ (s : State) (rd rs rt : Reg) (imm8 : BitVec 8),
    (∃ t, exec .nop s = .next t ∧ SameRegs s t ∧ SameMemory s t) ∧
    (∃ t v, exec (.add rd rs rt) s = .next t ∧ WroteReg rd v s t ∧ SameMemory s t ∧
      v.toNat = ((s.readReg rs).toNat + (s.readReg rt).toNat) % 65536) ∧
    (∃ t v, exec (.addi rd imm8) s = .next t ∧ WroteReg rd v s t ∧ SameMemory s t ∧
      (v.toNat : Int) = ((s.readReg rd).toNat + imm8.toInt) % 65536) ∧
    (∃ t v, exec (.sub rd rs rt) s = .next t ∧ WroteReg rd v s t ∧ SameMemory s t ∧
      (v.toNat : Int) = ((s.readReg rs).toNat - (s.readReg rt).toNat : Int) % 65536)

/-- Whether an exact signed result does not fit 16 bits. -/
def Sys2Proof.Machine.overflows (v : Int) : Prop := v < -32768 ∨ 32767 < v

/-- The flags after ADD, ADDI and SUB: Z and N of the result, C the carry or the borrow, V set
exactly when the signed result does not fit; and the frame of the three. The flag definitions are
the default of FLAGS, D7 (log 12). -/
def Obligations.ArithmeticFlagsAndFrame : Prop :=
  ∀ (s : State) (rd rs rt : Reg) (imm8 : BitVec 8),
    let a := s.readReg rs
    let b := s.readReg rt
    let d := s.readReg rd
    (∃ t, exec (.add rd rs rt) s = .next t ∧ ComputeFrame rd s t ∧
      FlagsAre ((a.toNat + b.toNat) % 65536 = 0) (32768 ≤ (a.toNat + b.toNat) % 65536)
        (65536 ≤ a.toNat + b.toNat) (overflows (a.toInt + b.toInt)) s t) ∧
    (∃ t, exec (.addi rd imm8) s = .next t ∧ ComputeFrame rd s t ∧
      FlagsAre ((d.toNat + imm8.toInt) % 65536 = 0) (32768 ≤ (d.toNat + imm8.toInt) % 65536)
        (65536 ≤ d.toNat + imm8.toInt % 65536) (overflows (d.toInt + imm8.toInt)) s t) ∧
    (∃ t, exec (.sub rd rs rt) s = .next t ∧ ComputeFrame rd s t ∧
      FlagsAre (a = b) (32768 ≤ (a.toNat - b.toNat : Int) % 65536)
        (a.toNat < b.toNat) (overflows (a.toInt - b.toInt)) s t)

/-- Every word 0x0000 to 0x0FFF is a NOP (D9, log 14), and NOP only adds 2 to pc, modulo 2^16 (D10,
log 15). -/
def Obligations.NopOnlyAdvances : Prop :=
  (∀ w : Word, w.toNat ≤ 0x0FFF → decode w = .ok .nop) ∧
  (∀ s : State, ∃ t, exec .nop s = .next t ∧ t = { s with pc := t.pc } ∧
    t.pc.toNat = (s.pc.toNat + 2) % 65536)

/-! ### Logic and shifts -/

/-- The instruction completes, writing into `rd` the value whose bit `k` is `bit k`; Z and N are of
that value, C and V and the rest of the machine as before, pc advanced. -/
def Sys2Proof.Machine.ComputesBits (i : Instr) (rd : Reg) (bit : Nat → Bool) (s : State) : Prop :=
  ∃ t v, exec i s = .next t ∧ (∀ k, k < 16 → v.getLsbD k = bit k) ∧ WroteReg rd v s t ∧
    ComputeFrame rd s t ∧
    FlagsAre (v.toNat = 0) (32768 ≤ v.toNat) (flagC s.sr = true) (flagV s.sr = true) s t

/-- AND, OR, XOR and NOT act bit by bit on all 16 bits. Which flags they write is D7 (log 12). -/
def Obligations.LogicActsBitByBit : Prop :=
  ∀ (s : State) (rd rs rt : Reg),
    let a := s.readReg rs
    let b := s.readReg rt
    ComputesBits (.and rd rs rt) rd (fun k => a.getLsbD k && b.getLsbD k) s ∧
    ComputesBits (.or rd rs rt) rd (fun k => a.getLsbD k || b.getLsbD k) s ∧
    ComputesBits (.xor rd rs rt) rd (fun k => a.getLsbD k ^^ b.getLsbD k) s ∧
    ComputesBits (.not rd rs) rd (fun k => !a.getLsbD k) s

/-- The instruction completes, writing into `rd` the value `n`; flags and frame as for the logic
instructions. -/
def Sys2Proof.Machine.ComputesValue (i : Instr) (rd : Reg) (n : Nat) (s : State) : Prop :=
  ∃ t v, exec i s = .next t ∧ v.toNat = n ∧ WroteReg rd v s t ∧ ComputeFrame rd s t ∧
    FlagsAre (n = 0) (32768 ≤ n) (flagC s.sr = true) (flagV s.sr = true) s t

/-- SHL and SHR are the mathematical shifts by the whole amount register, truncated to 16 bits, so 0
from 16 places on; zeros are shifted in (D8, log 13). The flags are D7 (log 12). -/
def Obligations.ShiftsAreTheMathematicalOnes : Prop :=
  ∀ (s : State) (rd rs rt : Reg),
    let a := (s.readReg rs).toNat
    let n := (s.readReg rt).toNat
    ComputesValue (.shl rd rs rt) rd (a * 2 ^ n % 65536) s ∧
    ComputesValue (.shr rd rs rt) rd (a / 2 ^ n) s

/-- The parameter SHIFT_OVER: `fault` raises ShiftRange from 16 places on; `mod16` shifts by the
amount modulo 16; below 16 places every setting of it gives the default's answer (D8, log 13). -/
def Obligations.ShiftOverParameter : Prop :=
  ∀ (c : Config) (s : State) (rd rs rt : Reg),
    let a := (s.readReg rs).toNat
    let n := (s.readReg rt).toNat
    (c.shiftOver = .fault → 16 ≤ n →
      execUnder c (.shl rd rs rt) s = .fault (.shiftRange (s.readReg rt)) ∧
      execUnder c (.shr rd rs rt) s = .fault (.shiftRange (s.readReg rt))) ∧
    (c.shiftOver = .mod16 →
      (∃ t v, execUnder c (.shl rd rs rt) s = .next t ∧ WroteReg rd v s t ∧
        v.toNat = a * 2 ^ (n % 16) % 65536) ∧
      (c.shrFill = .logical → ∃ t v, execUnder c (.shr rd rs rt) s = .next t ∧
        WroteReg rd v s t ∧ v.toNat = a / 2 ^ (n % 16))) ∧
    (n < 16 → c.flags = config.flags →
      execUnder c (.shl rd rs rt) s = exec (.shl rd rs rt) s ∧
      (c.shrFill = .logical → execUnder c (.shr rd rs rt) s = exec (.shr rd rs rt) s))

/-- The parameter SHR_FILL = arithmetic: the signed value is divided by 2^n and rounded down, so -1
or 0 from 16 places on; under SHIFT_OVER = mod16 the amount is taken modulo 16, and under `fault` the
amounts below 16 complete so (the others raise ShiftRange: ShiftOverParameter) (D8, log 13). -/
def Obligations.ArithmeticFillRoundsDown : Prop :=
  ∀ (c : Config) (s : State) (rd rs rt : Reg),
    let n := (s.readReg rt).toNat
    let dividesBy := fun k : Nat =>
      ∃ t v, execUnder c (.shr rd rs rt) s = .next t ∧ WroteReg rd v s t ∧ ComputeFrame rd s t ∧
        v.toInt = (s.readReg rs).toInt / 2 ^ k
    c.shrFill = .arithmetic →
      (c.shiftOver = .zero → dividesBy n) ∧
      (c.shiftOver = .mod16 → dividesBy (n % 16)) ∧
      (c.shiftOver = .fault → n < 16 → dividesBy n)

/-! ### Memory instructions -/

/-- LOAD at an even address completes with the little-endian word in `rd` (R0 discards it); no flag,
no byte of memory and no other register changes. The unsigned unscaled offset is D4 (log 9), the 16-bit
access D5 (log 10), that sr stays D7 (log 12), the wrap D10 (log 15), the read for R0 D21 (log 25). -/
def Obligations.LoadReadsTheWord : Prop :=
  ∀ (s : State) (rd rs : Reg) (off4 : BitVec 4),
    let ea := effectiveAddress s rs off4
    ea.toNat = ((s.readReg rs).toNat + off4.toNat) % 65536 ∧
    (ea.toNat % 2 = 0 → ∃ t v, exec (.load rd rs off4) s = .next t ∧
      v.toNat = (s.mem.read ea).toNat + 256 * (s.mem.read (ea + 1#16)).toNat ∧
      WroteReg rd v s t ∧ ComputeFrame rd s t ∧ t.sr = s.sr)

/-- STORE at an even address completes, writing the low byte of x[rd] at the effective address and
the high byte above it; every other byte, every register, sr, sp and lr are as before, pc advanced.
The offset is D4 (log 9), the 16-bit access D5 (log 10), that sr stays D7 (log 12), the wrap D10
(log 15); that no store is a hazard is D14 (log 19). -/
def Obligations.StoreWritesTheWord : Prop :=
  ∀ (s : State) (rd rs : Reg) (off4 : BitVec 4),
    let ea := effectiveAddress s rs off4
    ea.toNat % 2 = 0 → ∃ t, exec (.store rd rs off4) s = .next t ∧
      (t.mem.read ea).toNat = (s.readReg rd).toNat % 256 ∧
      (t.mem.read (ea + 1#16)).toNat = (s.readReg rd).toNat / 256 ∧
      (∀ k : Word, k ≠ ea → k ≠ ea + 1#16 → t.mem.read k = s.mem.read k) ∧
      SameRegs s t ∧ SameSpecials s t ∧ t.sr = s.sr ∧ t.pc = s.pc + 2#16

/-- LOAD and STORE at an odd address raise MisalignedData(ea), LOAD into R0 too, whatever the
parameters: STORE checks the alignment before the window of SMC_WINDOW (60_exceptions.md R97; D5,
log 10; D21, log 25). -/
def Obligations.OddDataAddressFaults : Prop :=
  ∀ (c : Config) (s : State) (rd rs : Reg) (off4 : BitVec 4),
    (effectiveAddress s rs off4).toNat % 2 = 1 →
    execUnder c (.load rd rs off4) s = .fault (.misalignedData (effectiveAddress s rs off4)) ∧
    execUnder c (.store rd rs off4) s = .fault (.misalignedData (effectiveAddress s rs off4)) ∧
    exec (.load rd rs off4) s = .fault (.misalignedData (effectiveAddress s rs off4)) ∧
    exec (.store rd rs off4) s = .fault (.misalignedData (effectiveAddress s rs off4))

/-- LOADI writes the sign-extended immediate, and changes nothing but `rd` and pc. That it leaves the
flags is D7 (log 12). -/
def Obligations.LoadImmediateSignExtends : Prop :=
  ∀ (s : State) (rd : Reg) (imm8 : BitVec 8),
    ∃ t v, exec (.loadi rd imm8) s = .next t ∧ v.toInt = imm8.toInt ∧ WroteReg rd v s t ∧
      ComputeFrame rd s t ∧ t.sr = s.sr

/-- A LOAD from the address of a STORE just completed gives the stored value, by whatever base and
offset it reaches it (sequential memory: D20, log 24; the 16-bit access: D5, log 10). -/
def Obligations.StoredWordIsLoadedBack : Prop :=
  ∀ (s t : State) (rd rs rd' rs' : Reg) (off4 off4' : BitVec 4),
    exec (.store rd rs off4) s = .next t →
    effectiveAddress t rs' off4' = effectiveAddress s rs off4 →
    ∃ u, exec (.load rd' rs' off4') t = .next u ∧ WroteReg rd' (s.readReg rd) t u

/-- A STORE over the next instruction is seen by its fetch: the stored word is the instruction that
runs next (D14, log 19). -/
def Obligations.StoredInstructionRunsNext : Prop :=
  ∀ (s : State) (rd rs : Reg) (off4 : BitVec 4) (i : Instr),
    s.running = true → s.pc.toNat % 2 = 0 → decode s.fetch = .ok (.store rd rs off4) →
    effectiveAddress s rs off4 = s.pc + 2#16 → decode (s.readReg rd) = .ok i →
    ∃ t, step s = .next t ∧ step t = exec i t

/-- The parameter SMC_WINDOW: a STORE to an even address raises SmcHazard exactly when the address is
that of one of the next SMC_WINDOW instruction slots, and otherwise does what it does by default
(D14, log 19). -/
def Obligations.SmcWindowParameter : Prop :=
  ∀ (c : Config) (s : State) (rd rs : Reg) (off4 : BitVec 4),
    let ea := effectiveAddress s rs off4
    let hit := ∃ j, 1 ≤ j ∧ j ≤ c.smcWindow ∧ ea = s.pc + BitVec.ofNat 16 (2 * j)
    ea.toNat % 2 = 0 →
    (hit → execUnder c (.store rd rs off4) s = .fault (.smcHazard ea)) ∧
    (¬hit → execUnder c (.store rd rs off4) s = exec (.store rd rs off4) s)

/-! ### Control flow -/

/-- JMP completes at the zero-extended absolute address, and changes nothing but pc (D3, log 8). -/
def Obligations.JumpGoesToItsAddress : Prop :=
  ∀ (s : State) (addr12 : BitVec 12),
    ∃ t, exec (.jmp addr12) s = .next t ∧ t = { s with pc := t.pc } ∧ t.pc.toNat = addr12.toNat

/-- BEQ and BNE complete, changing nothing but pc: the branch's own address plus the signed byte
offset when taken, plus 2 when not, modulo 2^16 (D2, log 7; D10, log 15). -/
def Obligations.BranchesTestOneRegister : Prop :=
  ∀ (s : State) (rc : Reg) (off8 : BitVec 8),
    (∃ t, exec (.beq rc off8) s = .next t ∧ t = { s with pc := t.pc } ∧
      (t.pc.toNat : Int) =
        (s.pc.toNat + if s.readReg rc = 0#16 then off8.toInt else 2) % 65536) ∧
    (∃ t, exec (.bne rc off8) s = .next t ∧ t = { s with pc := t.pc } ∧
      (t.pc.toNat : Int) =
        (s.pc.toNat + if s.readReg rc = 0#16 then 2 else off8.toInt) % 65536)

/-- HALT completes in the halted state and changes nothing else; its effect on pc is left unsaid, as
the spec asks (D11, log 16). -/
def Obligations.HaltStopsTheMachine : Prop :=
  ∀ s : State, ∃ t, exec .halt s = .next t ∧ t.halted = true ∧ SameRegs s t ∧ SameMemory s t ∧
    t.sp = s.sp ∧ t.lr = s.lr ∧ t.sr = s.sr ∧ t.fault = s.fault ∧
    (s.fault = none → t.succeeded = true ∧ ∀ n, runFor n t = t)

/-- Forms with R0 that have a fixed outcome: BNE R0 is never taken, BEQ R0 always is, LOADI R0
changes only pc, and ADD into R0 still writes Z from the sum it discards (D21, log 25; the target of
BEQ R0 is D2, log 7; Z is D7, log 12). -/
def Obligations.ZeroRegisterForms : Prop :=
  ∀ (s : State) (off8 imm8 : BitVec 8) (rs rt : Reg),
    exec (.bne 0 off8) s = .next { s with pc := s.pc + 2#16 } ∧
    exec (.beq 0 off8) s = .next { s with pc := s.pc + off8.signExtend 16 } ∧
    exec (.loadi 0 imm8) s = .next { s with pc := s.pc + 2#16 } ∧
    ∃ t, exec (.add 0 rs rt) s = .next t ∧ t.regs = s.regs ∧
      (flagZ t.sr = true ↔ ((s.readReg rs).toNat + (s.readReg rt).toNat) % 65536 = 0)

/-- BEQ R0 with offset 0, and a JMP to its own address, never end: from any running state at such a
word the machine hangs. -/
def Obligations.SelfBranchesHang : Prop :=
  ∀ s : State, s.running = true → s.pc.toNat % 2 = 0 →
    (s.fetch = 0xE000#16 ∨ (s.pc.toNat ≤ 0x0FFF ∧ s.fetch = 0xD000#16 + s.pc)) → Hangs s

/-! ### The whole machine -/

/-- The invariant holds after every step from every state that has it: memory stays canonical, the
reserved bits of sr stay zero (D15, log 20), and a halted machine is not a faulted one. -/
def Obligations.EveryStepKeepsTheInvariant : Prop :=
  ∀ s : State, s.Inv → (∀ t, step s = .next t → t.Inv) ∧ (advance s).Inv

/-- The invariant holds of the reset state and of every launch, whatever the host supplies. -/
def Obligations.EveryLaunchHasTheInvariant : Prop :=
  State.reset.Inv ∧ ∀ (c : Config) (l : Launch), (State.launch c l).Inv

/-- What a launch gives: pc at RESET_PC, not halted, no fault, R0 and the reserved bits of sr zero,
and every other register and flag as the host supplies it (D11 to D13, D15, D22; log 17, log 26). -/
def Obligations.LaunchSetsWhatResetSays : Prop :=
  ∀ (c : Config) (l : Launch),
    (State.launch c l).pc = c.resetPc ∧ (State.launch c l).running = true ∧
    (State.launch c l).readReg 0 = 0#16 ∧
    (∀ (n : Nat) (h : n < 15), (State.launch c l).readReg ⟨n + 1, by omega⟩ = l.regs[n]) ∧
    (State.launch c l).sp = l.sp ∧ (State.launch c l).lr = l.lr ∧
    (State.launch c l).sr.toNat = l.flags.toNat

/-- Every word of a program image the host loads at RESET_PC is there to be fetched (D12, D23;
log 6, log 17). -/
def Obligations.LaunchedProgramIsInMemory : Prop :=
  ∀ (c : Config) (l : Launch) (ws : List Word), l.image = imageOf c.resetPc ws →
    ws.length ≤ 32768 → ∀ (k : Nat) (h : k < ws.length),
      (State.launch c l).loadWord (c.resetPc + BitVec.ofNat 16 (2 * k)) = ws[k]

/-- Who writes what: only STORE changes memory, only the nine computing instructions change sr and
only its flags, only HALT changes halted, none changes sp, lr or fault, and no general register
changes but the destination, which is not R0 (which instructions write flags is D7, log 12). -/
def Obligations.EachInstructionWritesOnlyItsOwn : Prop :=
  ∀ (i : Instr) (s t : State), exec i s = .next t →
    (t.mem ≠ s.mem → isStore i = true) ∧
    (t.sr ≠ s.sr → writesFlags i = true) ∧
    t.sr.extractLsb' 4 12 = s.sr.extractLsb' 4 12 ∧
    (t.halted ≠ s.halted → i = .halt) ∧
    t.sp = s.sp ∧ t.lr = s.lr ∧ t.fault = s.fault ∧
    (∀ r, t.readReg r ≠ s.readReg r → destination i = some r ∧ r ≠ 0)

/-- No run depends on sr or on the parameter FLAGS: from two states that differ at most in sr, under
configurations that differ at most in FLAGS, any number of steps lead to states that differ at most
in sr. -/
def Obligations.StatusRegisterNeverInfluencesARun : Prop :=
  ∀ (c d : Config) (s t : State) (n : Nat), SameButFlags c d → SameButSr s t →
    SameButSr (runUnder c n s) (runUnder d n t)

/-- No run reads or writes sp or lr: changing them at the start changes them at the end, and nothing
else (no decoded instruction uses them: D1, D16, log 21). -/
def Obligations.StackPointerAndLinkRegisterAreInert : Prop :=
  ∀ (s : State) (p l : Word) (n : Nat),
    runFor n { s with sp := p, lr := l } = { runFor n s with sp := p, lr := l } ∧
    (runFor n s).sp = s.sp ∧ (runFor n s).lr = s.lr

/-- A run ends in exactly one of two ways or never ends: it halts, it faults, or it hangs. -/
def Obligations.ARunHaltsFaultsOrHangs : Prop :=
  ∀ s : State,
    (EndsInSuccess s ∨ EndsInFault s ∨ Hangs s) ∧
    ¬(EndsInSuccess s ∧ EndsInFault s) ∧ ¬(EndsInSuccess s ∧ Hangs s) ∧
    ¬(EndsInFault s ∧ Hangs s)

/-! ### The assembler -/

/-- A statement the assembler accepts becomes a word that decodes to the instruction it stands for,
under the same EXT_SPACE; the instruction bears the statement's mnemonic, so CALL, RET, PUSH and POP
give no word. -/
def Obligations.AssembledStatementDecodesBack : Prop :=
  ∀ (x : ExtSpace) (labels : List (List Char × Nat)) (addr : Nat)
    (st : List Char × List Operand) (w : Word), wordOf x labels addr st = .ok w →
    ∃ m i, mnemonicOf st.1 = some m ∧ instrOf labels addr m st.2 = .ok i ∧
      decodeUnder x w = .ok i ∧ i.mnemonic.toList = st.1 ∧
      m ≠ .call ∧ m ≠ .ret ∧ m ≠ .push ∧ m ≠ .pop

/-- The operands of an instruction as R55 writes them for its mnemonic, in their order; a branch
offset and a JMP target are a number or a label (R58, R59). -/
def Sys2Proof.Machine.spells (labels : List (List Char × Nat)) (addr : Nat) (ops : List Operand) :
    Instr → Prop
  | .nop => ops = []
  | .add rd rs rt => ops = [.reg rd, .reg rs, .reg rt]
  | .addi rd imm8 => ∃ v, ops = [.reg rd, .num v] ∧ byteField v = .ok imm8
  | .sub rd rs rt => ops = [.reg rd, .reg rs, .reg rt]
  | .and rd rs rt => ops = [.reg rd, .reg rs, .reg rt]
  | .or rd rs rt => ops = [.reg rd, .reg rs, .reg rt]
  | .xor rd rs rt => ops = [.reg rd, .reg rs, .reg rt]
  | .not rd rs => ops = [.reg rd, .reg rs]
  | .shl rd rs rt => ops = [.reg rd, .reg rs, .reg rt]
  | .shr rd rs rt => ops = [.reg rd, .reg rs, .reg rt]
  | .load rd rs off4 => ∃ v, ops = [.reg rd, .reg rs, .num v] ∧ offField v = .ok off4
  | .store rd rs off4 => ∃ v, ops = [.reg rd, .reg rs, .num v] ∧ offField v = .ok off4
  | .loadi rd imm8 => ∃ v, ops = [.reg rd, .num v] ∧ byteField v = .ok imm8
  | .jmp addr12 =>
    (∃ v, ops = [.num v] ∧ addrField v = .ok addr12) ∨
    ∃ l a, ops = [.label l] ∧ addressOf labels l = .ok a ∧ jumpField l a = .ok addr12
  | .beq rc off8 =>
    (∃ v, ops = [.reg rc, .num v] ∧ byteField v = .ok off8) ∨
    ∃ l a, ops = [.reg rc, .label l] ∧ addressOf labels l = .ok a ∧ branchField l addr a = .ok off8
  | .bne rc off8 =>
    (∃ v, ops = [.reg rc, .num v] ∧ byteField v = .ok off8) ∨
    ∃ l a, ops = [.reg rc, .label l] ∧ addressOf labels l = .ok a ∧ branchField l addr a = .ok off8
  | .halt => ops = []
  | .call _ => False
  | .ret _ => False
  | .push _ => False
  | .pop _ => False

/-- A statement is given a word exactly when its mnemonic and its operands, in the order of R55, are
those of an instruction that has a word, and the word is that instruction's. The operands of NOT are
D25 (log 28), the ranges D18 (log 23), the labels D17 (log 22), the instructions with a word D1
(log 29) and, for BNE RF, 0xFF, the model's choice (log 32). -/
def Obligations.AStatementHasItsOperandsInTheOrderOfItsFormat : Prop :=
  ∀ (x : ExtSpace) (labels : List (List Char × Nat)) (addr : Nat) (name : List Char)
    (ops : List Operand) (w : Word),
    wordOf x labels addr (name, ops) = .ok w ↔
      ∃ i : Instr, i.mnemonic.toList = name ∧ spells labels addr ops i ∧
        i.wellFormed x = true ∧ w = encode i

/-- A branch assembled to a label goes to that label when it is taken, and a label is accepted
exactly when it is within -128 to 126 bytes and an even distance away (D2, D17; log 7, log 22). -/
def Obligations.BranchToALabelReachesIt : Prop :=
  ∀ (l : List Char) (s : State) (target : Word) (rc : Reg),
    (∀ off8, branchField l s.pc.toNat target.toNat = .ok off8 →
      (s.readReg rc = 0#16 → ∃ t, exec (.beq rc off8) s = .next t ∧ t.pc = target) ∧
      (s.readReg rc ≠ 0#16 → ∃ t, exec (.bne rc off8) s = .next t ∧ t.pc = target)) ∧
    ((∃ off8, branchField l s.pc.toNat target.toNat = .ok off8) ↔
      -128 ≤ (target.toNat : Int) - s.pc.toNat ∧ (target.toNat : Int) - s.pc.toNat ≤ 126 ∧
      ((target.toNat : Int) - s.pc.toNat) % 2 = 0)

/-- A number goes into a field modulo its size or is refused, never truncated: Imm8 and Offset take
-128 to 255, Off 0 to 15, Addr12 0 to 0xFFF (D18, log 23). -/
def Obligations.NumbersAreRefusedNotTruncated : Prop :=
  ∀ v : Int,
    (-128 ≤ v ∧ v ≤ 255 → ∃ f, byteField v = .ok f ∧ (f.toNat : Int) = v % 256) ∧
    (¬(-128 ≤ v ∧ v ≤ 255) → byteField v = .error (.outOfRange v)) ∧
    (0 ≤ v ∧ v ≤ 15 → ∃ f, offField v = .ok f ∧ (f.toNat : Int) = v) ∧
    (¬(0 ≤ v ∧ v ≤ 15) → offField v = .error (.outOfRange v)) ∧
    (0 ≤ v ∧ v ≤ 0xFFF → ∃ f, addrField v = .ok f ∧ (f.toNat : Int) = v) ∧
    (¬(0 ≤ v ∧ v ≤ 0xFFF) → addrField v = .error (.outOfRange v))

/-- A text that assembles has one word for each of its instructions, in order, each of which is the
word of its statement at its address. -/
def Obligations.AssembledTextHasOneWordPerInstruction : Prop :=
  ∀ (c : Config) (text : List Char) (ws : List Word), assemble c text = .ok ws →
    ∃ ls, linesOf (splitLines text []) = .ok ls ∧ ws.length = (ls.filterMap (·.op)).length ∧
      ∀ (k : Nat) (h : k < ws.length) (st : List Char × List Operand),
        (ls.filterMap (·.op))[k]? = some st →
        wordOf c.extSpace (labelsFrom c.resetPc.toNat ls) (c.resetPc.toNat + 2 * k) st = .ok ws[k]
end

