-- ==== Sys2Proof/Laws/Fields.lean ====
section
/-!
SUPPORT. The fields of a packed word, and a word as the packing of its fields (30_encoding.md R39 to
R44).
-/

namespace Sys2Proof

@[simp] theorem toNat_regBits (r : Reg) : (regBits r).toNat = r.val := rfl

/-- The value of a concatenation. -/
theorem toNat_concat {m n : Nat} (x : BitVec m) (y : BitVec n) :
    (x ++ y).toNat = x.toNat * 2 ^ n + y.toNat := by
  rw [BitVec.toNat_append, Nat.shiftLeft_eq, Nat.mul_comm x.toNat,
    ← Nat.two_pow_add_eq_or_of_lt y.isLt]

/-- The value of four packed digits. -/
theorem toNat_packR (op : BitVec 4) (rd rs : Reg) (low : BitVec 4) :
    (packR op rd rs low).toNat = op.toNat * 4096 + rd.val * 256 + rs.val * 16 + low.toNat := by
  unfold packR
  rw [toNat_concat, toNat_concat, toNat_concat, toNat_regBits, toNat_regBits]
  omega

/-- The value of a packed digit, digit and byte. -/
theorem toNat_packI (op : BitVec 4) (rd : Reg) (low : BitVec 8) :
    (packI op rd low).toNat = op.toNat * 4096 + rd.val * 256 + low.toNat := by
  unfold packI
  rw [toNat_concat, toNat_concat, toNat_regBits]
  omega

/-- The value of a packed digit and address. -/
theorem toNat_packJ (op : BitVec 4) (low : BitVec 12) :
    (packJ op low).toNat = op.toNat * 4096 + low.toNat := by
  unfold packJ
  rw [toNat_concat]
  omega

/-! ### The fields of a word by value -/

theorem opField_val (w : Word) : (opField w).val = w.toNat / 4096 := by
  have := w.isLt
  change (w.extractLsb' 12 4).toNat = _
  rw [BitVec.extractLsb'_toNat, Nat.shiftRight_eq_div_pow]
  omega

theorem rdField_val (w : Word) : (rdField w).val = w.toNat / 256 % 16 := by
  change (w.extractLsb' 8 4).toNat = _
  rw [BitVec.extractLsb'_toNat, Nat.shiftRight_eq_div_pow]

theorem rsField_val (w : Word) : (rsField w).val = w.toNat / 16 % 16 := by
  change (w.extractLsb' 4 4).toNat = _
  rw [BitVec.extractLsb'_toNat, Nat.shiftRight_eq_div_pow]

theorem rtField_val (w : Word) : (rtField w).val = w.toNat % 16 := by
  change (w.extractLsb' 0 4).toNat = _
  rw [BitVec.extractLsb'_toNat, Nat.shiftRight_zero]

theorem off4Field_toNat (w : Word) : (off4Field w).toNat = w.toNat % 16 := by
  unfold off4Field
  rw [BitVec.extractLsb'_toNat, Nat.shiftRight_zero]

theorem low8Field_toNat (w : Word) : (low8Field w).toNat = w.toNat % 256 := by
  unfold low8Field
  rw [BitVec.extractLsb'_toNat, Nat.shiftRight_zero]

theorem addr12Field_toNat (w : Word) : (addr12Field w).toNat = w.toNat % 4096 := by
  unfold addr12Field
  rw [BitVec.extractLsb'_toNat, Nat.shiftRight_zero]

/-! ### The fields of a packed word -/

section
variable (op low4 : BitVec 4) (rd rs : Reg) (low8 : BitVec 8) (low12 : BitVec 12)

@[simp] theorem opField_packR : (opField (packR op rd rs low4)).val = op.toNat := by
  have := low4.isLt
  have := rs.isLt
  have := rd.isLt
  rw [opField_val, toNat_packR]; omega

@[simp] theorem rdField_packR : rdField (packR op rd rs low4) = rd := by
  have := low4.isLt
  have := rs.isLt
  have := rd.isLt
  apply Fin.ext
  rw [rdField_val, toNat_packR]; omega

@[simp] theorem rsField_packR : rsField (packR op rd rs low4) = rs := by
  have := low4.isLt
  have := rs.isLt
  apply Fin.ext
  rw [rsField_val, toNat_packR]; omega

@[simp] theorem rtField_packR (rt : Reg) : rtField (packR op rd rs (regBits rt)) = rt := by
  have := rt.isLt
  apply Fin.ext
  rw [rtField_val, toNat_packR, toNat_regBits]; omega

@[simp] theorem off4Field_packR : off4Field (packR op rd rs low4) = low4 := by
  have := low4.isLt
  apply BitVec.eq_of_toNat_eq
  rw [off4Field_toNat, toNat_packR]; omega

@[simp] theorem opField_packI : (opField (packI op rd low8)).val = op.toNat := by
  have := low8.isLt
  have := rd.isLt
  rw [opField_val, toNat_packI]; omega

@[simp] theorem rdField_packI : rdField (packI op rd low8) = rd := by
  have := low8.isLt
  have := rd.isLt
  apply Fin.ext
  rw [rdField_val, toNat_packI]; omega

@[simp] theorem low8Field_packI : low8Field (packI op rd low8) = low8 := by
  have := low8.isLt
  apply BitVec.eq_of_toNat_eq
  rw [low8Field_toNat, toNat_packI]; omega

@[simp] theorem opField_packJ : (opField (packJ op low12)).val = op.toNat := by
  have := low12.isLt
  rw [opField_val, toNat_packJ]; omega

@[simp] theorem addr12Field_packJ : addr12Field (packJ op low12) = low12 := by
  have := low12.isLt
  apply BitVec.eq_of_toNat_eq
  rw [addr12Field_toNat, toNat_packJ]; omega

end

/-! ### A word as the packing of its fields -/

theorem packR_fields (w : Word) :
    packR (BitVec.ofFin (opField w)) (rdField w) (rsField w) (off4Field w) = w := by
  have := w.isLt
  apply BitVec.eq_of_toNat_eq
  rw [toNat_packR, rdField_val, rsField_val, off4Field_toNat, BitVec.toNat_ofFin, opField_val]
  omega

theorem packI_fields (w : Word) :
    packI (BitVec.ofFin (opField w)) (rdField w) (low8Field w) = w := by
  have := w.isLt
  apply BitVec.eq_of_toNat_eq
  rw [toNat_packI, rdField_val, low8Field_toNat, BitVec.toNat_ofFin, opField_val]
  omega

theorem packJ_fields (w : Word) : packJ (BitVec.ofFin (opField w)) (addr12Field w) = w := by
  have := w.isLt
  apply BitVec.eq_of_toNat_eq
  rw [toNat_packJ, addr12Field_toNat, BitVec.toNat_ofFin, opField_val]
  omega

theorem regBits_rtField (w : Word) : regBits (rtField w) = off4Field w := rfl

end Sys2Proof
end

