-- ==== Sys2Proof/Laws/Memory.lean ====
section
/-!
SUPPORT. The laws of memory: a read after a write, the canonical form kept by every operation, and
canonical memories that read alike being equal.
-/

namespace Sys2Proof.Machine

/-! ### What is listed -/

theorem lookup_erase_same (m : Memory) (a : Nat) : (m.erase a).lookup a = unwrittenByte := by
  induction m with
  | nil => rfl
  | cons c rest ih =>
    by_cases h : c.1 = a
    · simpa [Memory.erase, h] using ih
    · simpa [Memory.erase, Memory.lookup, h] using ih

theorem lookup_erase_other (m : Memory) {a k : Nat} (hk : k ≠ a) :
    (m.erase a).lookup k = m.lookup k := by
  induction m with
  | nil => rfl
  | cons c rest ih =>
    by_cases h : c.1 = a
    · have hc : c.1 ≠ k := fun e => hk (e ▸ h)
      simpa [Memory.erase, Memory.lookup, h, Ne.symm hk] using ih
    · by_cases hc : c.1 = k
      · simp [Memory.erase, Memory.lookup, hc, hk]
      · simpa [Memory.erase, Memory.lookup, h, hc] using ih

theorem lookup_insert (m : Memory) (a : Nat) (b : Byte) (k : Nat) (hm : ∀ c ∈ m, c.1 ≠ a) :
    (m.insert a b).lookup k = if k = a then b else m.lookup k := by
  induction m with
  | nil =>
    by_cases h : k = a
    · simp [Memory.insert, Memory.lookup, h]
    · simp [Memory.insert, Memory.lookup, h, Ne.symm h]
  | cons c rest ih =>
    have hc : c.1 ≠ a := hm c (by simp)
    have ih := ih (fun d hd => hm d (by simp [hd]))
    unfold Memory.insert
    split
    · by_cases h : k = a
      · simp [Memory.lookup, h]
      · simp [Memory.lookup, h, Ne.symm h]
    · by_cases h : c.1 = k
      · have hk : k ≠ a := h ▸ hc
        simp [Memory.lookup, h, hk]
      · simpa [Memory.lookup, h] using ih

theorem erase_lists_not (m : Memory) (a : Nat) : ∀ c ∈ m.erase a, c.1 ≠ a := by
  intro c hc
  simpa [Memory.erase] using (List.mem_filter.mp hc).2

/-! ### Reads after writes -/

theorem read_write (m : Memory) (a : Word) (b : Byte) (k : Word) :
    (m.write a b).read k = if k = a then b else m.read k := by
  have hk : k.toNat = a.toNat ↔ k = a := BitVec.toNat_inj
  unfold Memory.write Memory.read
  split
  · next hb =>
    by_cases h : k = a
    · subst h; simp [lookup_erase_same, hb]
    · rw [lookup_erase_other _ (fun e => h (hk.mp e)), if_neg h]
  · rw [lookup_insert _ _ _ _ (erase_lists_not m a.toNat)]
    by_cases h : k = a
    · simp [h]
    · have h' : k.toNat ≠ a.toNat := fun e => h (hk.mp e)
      rw [if_neg h', if_neg h, lookup_erase_other _ h']

@[simp] theorem read_write_same (m : Memory) (a : Word) (b : Byte) : (m.write a b).read a = b := by
  simp [read_write]

theorem read_write_other (m : Memory) (b : Byte) {a k : Word} (h : k ≠ a) :
    (m.write a b).read k = m.read k := by
  simp [read_write, h]

/-- The two bytes of a word are at different addresses, wrapping or not. -/
theorem add_one_ne (a : Word) : a + 1#16 ≠ a := by
  intro h
  have := congrArg BitVec.toNat h
  rw [BitVec.toNat_add, show (1#16).toNat = 1 from rfl] at this
  omega

theorem read_writeWord (m : Memory) (a v k : Word) :
    (m.writeWord a v).read k =
      if k = a then v.extractLsb' 0 8 else if k = a + 1#16 then v.extractLsb' 8 8 else m.read k := by
  unfold Memory.writeWord
  rw [read_write, read_write]
  by_cases h : k = a
  · have : k ≠ a + 1#16 := h ▸ (add_one_ne a).symm
    subst h
    simp [this]
  · simp [h]

/-- The bytes outside a stored word read as before. -/
theorem read_writeWord_other (m : Memory) (v : Word) {a k : Word} (h : k ≠ a) (h' : k ≠ a + 1#16) :
    (m.writeWord a v).read k = m.read k := by
  simp [read_writeWord, h, h']

theorem wordOfBytes_split (v : Word) :
    wordOfBytes (v.extractLsb' 0 8) (v.extractLsb' 8 8) = v := by
  apply BitVec.eq_of_getLsbD_eq
  intro i hi
  unfold wordOfBytes
  rw [BitVec.getLsbD_append]
  split
  · next h => simp [h]
  · next h =>
    have h8 : i - 8 < 8 := by omega
    have : 8 + (i - 8) = i := by omega
    simp [h8, this]

theorem toNat_wordOfBytes (lo hi : Byte) :
    (wordOfBytes lo hi).toNat = lo.toNat + 256 * hi.toNat := by
  have hlo := lo.isLt
  unfold wordOfBytes
  rw [BitVec.toNat_append, Nat.shiftLeft_eq, Nat.mul_comm hi.toNat, ← Nat.two_pow_add_eq_or_of_lt hlo]
  omega

/-- A word read where it was stored. -/
@[simp] theorem readWord_writeWord_same (m : Memory) (a v : Word) :
    (m.writeWord a v).readWord a = v := by
  have h1 : (m.writeWord a v).read a = v.extractLsb' 0 8 := by simp [read_writeWord]
  have h2 : (m.writeWord a v).read (a + 1#16) = v.extractLsb' 8 8 := by
    simp [read_writeWord]
  rw [Memory.readWord, h1, h2, wordOfBytes_split]

/-! ### The canonical form -/

theorem wf_nil : Memory.wf [] := by decide

theorem wf_erase {m : Memory} (h : m.wf) (a : Nat) : (m.erase a).wf :=
  ⟨h.1.filter _, fun c hc => h.2 c (List.mem_filter.mp hc).1⟩

theorem mem_insert {m : Memory} {a : Nat} {b : Byte} {c : Host.Cell} (hc : c ∈ m.insert a b) :
    c = (a, b) ∨ c ∈ m := by
  induction m with
  | nil => simpa [Memory.insert] using hc
  | cons d rest ih =>
    unfold Memory.insert at hc
    split at hc
    · simpa using hc
    · rcases List.mem_cons.mp hc with h | h
      · exact .inr (by simp [h])
      · rcases ih h with h | h
        · exact .inl h
        · exact .inr (by simp [h])

theorem wf_insert {m : Memory} (h : m.wf) {a : Nat} {b : Byte} (ha : a < 65536)
    (hb : b ≠ unwrittenByte) (hm : ∀ c ∈ m, c.1 ≠ a) : (m.insert a b).wf := by
  refine ⟨?_, fun c hc => ?_⟩
  · have hp := h.1
    clear h
    induction m with
    | nil => simp [Memory.insert]
    | cons d rest ih =>
      have hd : d.1 ≠ a := hm d (by simp)
      obtain ⟨h1, h2⟩ := List.pairwise_cons.mp hp
      unfold Memory.insert
      split
      · next hlt =>
        refine List.pairwise_cons.mpr ⟨fun c hc => ?_, hp⟩
        rcases List.mem_cons.mp hc with e | e
        · subst e; exact hlt
        · exact Nat.lt_trans hlt (h1 c e)
      · next hge =>
        refine List.pairwise_cons.mpr ⟨fun c hc => ?_, ih (fun c hc => hm c (by simp [hc])) h2⟩
        rcases mem_insert hc with e | e
        · subst e; change d.1 < a; omega
        · exact h1 c e
  · rcases mem_insert hc with e | e
    · subst e; exact ⟨ha, hb⟩
    · exact h.2 c e

/-- A write keeps the canonical form. -/
theorem wf_write {m : Memory} (h : m.wf) (a : Word) (b : Byte) : (m.write a b).wf := by
  unfold Memory.write
  split
  · exact wf_erase h _
  · next hb => exact wf_insert (wf_erase h _) a.isLt hb (erase_lists_not m _)

theorem wf_writeWord {m : Memory} (h : m.wf) (a v : Word) : (m.writeWord a v).wf :=
  wf_write (wf_write h _ _) _ _

theorem wf_load {m : Memory} (h : m.wf) (image : List (Word × Byte)) : (Memory.load m image).wf := by
  induction image generalizing m with
  | nil => exact h
  | cons c rest ih => exact ih (wf_write h _ _)

/-- The tail of a canonical memory is canonical, and lists no address of its head or below. -/
theorem wf_cons {c : Host.Cell} {m : Memory} (h : Memory.wf (c :: m)) :
    m.wf ∧ ∀ d ∈ m, c.1 < d.1 := by
  obtain ⟨h1, h2⟩ := List.pairwise_cons.mp h.1
  exact ⟨⟨h2, fun d hd => h.2 d (by simp [hd])⟩, h1⟩

/-- An address that no entry has reads as `unwrittenByte`. -/
theorem lookup_unlisted {m : Memory} {k : Nat} (h : ∀ c ∈ m, c.1 ≠ k) :
    m.lookup k = unwrittenByte := by
  induction m with
  | nil => rfl
  | cons c rest ih =>
    have hc : c.1 ≠ k := h c (by simp)
    simpa [Memory.lookup, hc] using ih (fun d hd => h d (by simp [hd]))

end Sys2Proof.Machine
end

