-- ==== Sys2Proof/Laws/State.lean ====
section
/-!
SUPPORT. The small lemmas of the state: what each update leaves in each field, and what a register
read gives after each update.
-/

namespace Sys2Proof.Machine

variable (s : State) (t a v : Word) (f : BitVec 4) (r : Reg) (e : Fault)

/-! ### setPc, nextPc -/

@[simp] theorem setPc_regs : (s.setPc t).regs = s.regs := rfl
@[simp] theorem setPc_pc : (s.setPc t).pc = t := rfl
@[simp] theorem setPc_sp : (s.setPc t).sp = s.sp := rfl
@[simp] theorem setPc_lr : (s.setPc t).lr = s.lr := rfl
@[simp] theorem setPc_sr : (s.setPc t).sr = s.sr := rfl
@[simp] theorem setPc_mem : (s.setPc t).mem = s.mem := rfl
@[simp] theorem setPc_halted : (s.setPc t).halted = s.halted := rfl
@[simp] theorem setPc_fault : (s.setPc t).fault = s.fault := rfl

@[simp] theorem nextPc_regs : s.nextPc.regs = s.regs := rfl
@[simp] theorem nextPc_pc : s.nextPc.pc = s.pc + 2#16 := rfl
@[simp] theorem nextPc_sp : s.nextPc.sp = s.sp := rfl
@[simp] theorem nextPc_lr : s.nextPc.lr = s.lr := rfl
@[simp] theorem nextPc_sr : s.nextPc.sr = s.sr := rfl
@[simp] theorem nextPc_mem : s.nextPc.mem = s.mem := rfl
@[simp] theorem nextPc_halted : s.nextPc.halted = s.halted := rfl
@[simp] theorem nextPc_fault : s.nextPc.fault = s.fault := rfl

/-! ### setFlags -/

@[simp] theorem setFlags_regs : (s.setFlags f).regs = s.regs := rfl
@[simp] theorem setFlags_pc : (s.setFlags f).pc = s.pc := rfl
@[simp] theorem setFlags_sp : (s.setFlags f).sp = s.sp := rfl
@[simp] theorem setFlags_lr : (s.setFlags f).lr = s.lr := rfl
@[simp] theorem setFlags_sr : (s.setFlags f).sr = s.sr.extractLsb' 4 12 ++ f := rfl
@[simp] theorem setFlags_mem : (s.setFlags f).mem = s.mem := rfl
@[simp] theorem setFlags_halted : (s.setFlags f).halted = s.halted := rfl
@[simp] theorem setFlags_fault : (s.setFlags f).fault = s.fault := rfl

/-! ### writeReg -/

@[simp] theorem writeReg_pc : (s.writeReg r v).pc = s.pc := by
  rcases r with ⟨_ | n, h⟩ <;> rfl
@[simp] theorem writeReg_sp : (s.writeReg r v).sp = s.sp := by
  rcases r with ⟨_ | n, h⟩ <;> rfl
@[simp] theorem writeReg_lr : (s.writeReg r v).lr = s.lr := by
  rcases r with ⟨_ | n, h⟩ <;> rfl
@[simp] theorem writeReg_sr : (s.writeReg r v).sr = s.sr := by
  rcases r with ⟨_ | n, h⟩ <;> rfl
@[simp] theorem writeReg_mem : (s.writeReg r v).mem = s.mem := by
  rcases r with ⟨_ | n, h⟩ <;> rfl
@[simp] theorem writeReg_halted : (s.writeReg r v).halted = s.halted := by
  rcases r with ⟨_ | n, h⟩ <;> rfl
@[simp] theorem writeReg_fault : (s.writeReg r v).fault = s.fault := by
  rcases r with ⟨_ | n, h⟩ <;> rfl

/-- A write to R0 is discarded (10_state.md R9). -/
@[simp] theorem writeReg_zero : s.writeReg 0 v = s := rfl

/-! ### storeWord, halt, recordFault -/

@[simp] theorem storeWord_regs : (s.storeWord a v).regs = s.regs := rfl
@[simp] theorem storeWord_pc : (s.storeWord a v).pc = s.pc := rfl
@[simp] theorem storeWord_sp : (s.storeWord a v).sp = s.sp := rfl
@[simp] theorem storeWord_lr : (s.storeWord a v).lr = s.lr := rfl
@[simp] theorem storeWord_sr : (s.storeWord a v).sr = s.sr := rfl
@[simp] theorem storeWord_mem : (s.storeWord a v).mem = s.mem.writeWord a v := rfl
@[simp] theorem storeWord_halted : (s.storeWord a v).halted = s.halted := rfl
@[simp] theorem storeWord_fault : (s.storeWord a v).fault = s.fault := rfl

@[simp] theorem halt_regs : s.halt.regs = s.regs := rfl
@[simp] theorem halt_pc : s.halt.pc = s.pc := rfl
@[simp] theorem halt_sp : s.halt.sp = s.sp := rfl
@[simp] theorem halt_lr : s.halt.lr = s.lr := rfl
@[simp] theorem halt_sr : s.halt.sr = s.sr := rfl
@[simp] theorem halt_mem : s.halt.mem = s.mem := rfl
@[simp] theorem halt_halted : s.halt.halted = true := rfl
@[simp] theorem halt_fault : s.halt.fault = s.fault := rfl

@[simp] theorem recordFault_regs : (s.recordFault e).regs = s.regs := rfl
@[simp] theorem recordFault_pc : (s.recordFault e).pc = s.pc := rfl
@[simp] theorem recordFault_sp : (s.recordFault e).sp = s.sp := rfl
@[simp] theorem recordFault_lr : (s.recordFault e).lr = s.lr := rfl
@[simp] theorem recordFault_sr : (s.recordFault e).sr = s.sr := rfl
@[simp] theorem recordFault_mem : (s.recordFault e).mem = s.mem := rfl
@[simp] theorem recordFault_halted : (s.recordFault e).halted = s.halted := rfl
@[simp] theorem recordFault_fault : (s.recordFault e).fault = some e := rfl

/-! ### Reading a register -/

/-- R0 reads as 0x0000 (10_state.md R9). -/
@[simp] theorem readReg_zero : s.readReg 0 = 0#16 := rfl

/-- A register read depends on the register file alone. -/
theorem readReg_congr {s t : State} (h : t.regs = s.regs) (r : Reg) : t.readReg r = s.readReg r := by
  rcases r with ⟨_ | n, hn⟩
  · rfl
  · simp [State.readReg, h]

@[simp] theorem readReg_setPc : (s.setPc t).readReg r = s.readReg r := readReg_congr rfl r
@[simp] theorem readReg_nextPc : s.nextPc.readReg r = s.readReg r := readReg_congr rfl r
@[simp] theorem readReg_setFlags : (s.setFlags f).readReg r = s.readReg r := readReg_congr rfl r
@[simp] theorem readReg_storeWord : (s.storeWord a v).readReg r = s.readReg r := readReg_congr rfl r
@[simp] theorem readReg_halt : s.halt.readReg r = s.readReg r := readReg_congr rfl r
@[simp] theorem readReg_recordFault : (s.recordFault e).readReg r = s.readReg r :=
  readReg_congr rfl r

/-- What every register reads as after a write. -/
theorem readReg_writeReg (q : Reg) :
    (s.writeReg r v).readReg q = if q = r ∧ r ≠ 0 then v else s.readReg q := by
  rcases r with ⟨_ | n, hn⟩ <;> rcases q with ⟨_ | m, hm⟩
  · simp [State.writeReg]
  · simp [State.writeReg]
  · simp [State.readReg]
  · by_cases h : m = n
    · subst h; simp [State.writeReg, State.readReg]
    · have h' : n ≠ m := fun e => h e.symm
      simp [State.writeReg, State.readReg, h, Vector.getElem_set_ne _ _ h']

/-- The written register reads as the value, unless it is R0. -/
theorem readReg_writeReg_same : (s.writeReg r v).readReg r = if r = 0 then 0#16 else v := by
  rw [readReg_writeReg]
  by_cases h : r = 0
  · subst h; simp
  · simp [h]

/-- Every other register reads as before. -/
theorem readReg_writeReg_other {r q : Reg} (h : q ≠ r) : (s.writeReg r v).readReg q = s.readReg q := by
  simp [readReg_writeReg, h]

/-! ### The flags -/

/-- Bit `i` of sr, below 4, after the flags are written. -/
theorem setFlags_bit (i : Nat) (hi : i < 4) : (s.setFlags f).sr.getLsbD i = f.getLsbD i := by
  change (s.sr.extractLsb' 4 12 ++ f).getLsbD i = _
  rw [BitVec.getLsbD_append, if_pos hi]

@[simp] theorem flagZ_setFlags : flagZ (s.setFlags f).sr = f.getLsbD 0 :=
  setFlags_bit s f 0 (by decide)
@[simp] theorem flagN_setFlags : flagN (s.setFlags f).sr = f.getLsbD 1 :=
  setFlags_bit s f 1 (by decide)
@[simp] theorem flagC_setFlags : flagC (s.setFlags f).sr = f.getLsbD 2 :=
  setFlags_bit s f 2 (by decide)
@[simp] theorem flagV_setFlags : flagV (s.setFlags f).sr = f.getLsbD 3 :=
  setFlags_bit s f 3 (by decide)

/-- Writing the flags leaves sr[15:4] as it is (10_state.md R13). -/
theorem reserved_setFlags : (s.setFlags f).sr.extractLsb' 4 12 = s.sr.extractLsb' 4 12 := by
  apply BitVec.eq_of_getLsbD_eq
  intro i hi
  rw [BitVec.getLsbD_extractLsb', BitVec.getLsbD_extractLsb']
  change (decide (i < 12) && (s.sr.extractLsb' 4 12 ++ f).getLsbD (4 + i)) = _
  rw [BitVec.getLsbD_append, if_neg (by omega)]
  simp [hi]

theorem packFlags_bits (z n c v : Bool) :
    (packFlags z n c v).getLsbD 0 = z ∧ (packFlags z n c v).getLsbD 1 = n ∧
      (packFlags z n c v).getLsbD 2 = c ∧ (packFlags z n c v).getLsbD 3 = v := by
  cases z <;> cases n <;> cases c <;> cases v <;> decide

end Sys2Proof.Machine
end

