-- ==== Sys2Proof/Laws/Ops.lean ====
section
/-!
SUPPORT. What each shared operation does, once: writing a result, checking an address, shifting,
the cycle of a step, and recording a fault. Later proofs cite these instead of unfolding.
-/

namespace Sys2Proof.Machine

/-! ### writeResult -/

section
variable (s : State) (c : Config) (k : FlagKind) (rd : Reg) (a b r : Word)

@[simp] theorem writeResult_pc : (s.writeResult c k rd a b r).pc = s.pc + 2#16 := by
  simp [State.writeResult]
@[simp] theorem writeResult_sp : (s.writeResult c k rd a b r).sp = s.sp := by
  simp [State.writeResult]
@[simp] theorem writeResult_lr : (s.writeResult c k rd a b r).lr = s.lr := by
  simp [State.writeResult]
@[simp] theorem writeResult_mem : (s.writeResult c k rd a b r).mem = s.mem := by
  simp [State.writeResult]
@[simp] theorem writeResult_halted : (s.writeResult c k rd a b r).halted = s.halted := by
  simp [State.writeResult]
@[simp] theorem writeResult_fault : (s.writeResult c k rd a b r).fault = s.fault := by
  simp [State.writeResult]

/-- The register file after a result is written is the register file after the register write. -/
@[simp] theorem readReg_writeResult (q : Reg) :
    (s.writeResult c k rd a b r).readReg q = (s.writeReg rd r).readReg q := by
  simp [State.writeResult]

@[simp] theorem writeResult_sr :
    (s.writeResult c k rd a b r).sr = (s.setFlags (c.flags k a b r s.sr)).sr := by
  simp [State.writeResult]
end

/-! ### Addresses -/

theorem isOdd_iff (a : Word) : isOdd a = true ↔ a.toNat % 2 = 1 := by
  unfold isOdd
  rw [BitVec.getLsbD, Nat.testBit_zero]
  simp

theorem isOdd_eq_false_iff (a : Word) : isOdd a = false ↔ a.toNat % 2 = 0 := by
  rw [← Bool.not_eq_true, isOdd_iff]
  omega

/-- MISALIGNED_DATA has one value, so the check is the same under every configuration. -/
theorem checkData_eq (c : Config) (ea : Word) :
    checkData c ea = if isOdd ea then some (.misalignedData ea) else none := by
  unfold checkData
  cases c.misalignedData
  rfl

/-- A window of no slots is never hit. -/
@[simp] theorem hitsWindow_zero (pc ea : Word) : hitsWindow 0 pc ea = false := rfl

/-- A window of `k` slots is hit at `pc + 2*j` for some `j` in 1..k (20_memory.md R37). -/
theorem hitsWindow_iff (k : Nat) (pc ea : Word) :
    hitsWindow k pc ea = true ↔ ∃ j, 1 ≤ j ∧ j ≤ k ∧ ea = pc + BitVec.ofNat 16 (2 * j) := by
  unfold hitsWindow
  rw [List.any_eq_true]
  constructor
  · rintro ⟨j, hj, he⟩
    exact ⟨j + 1, by omega, by have := List.mem_range.mp hj; omega, by simpa using he⟩
  · rintro ⟨j, h1, hk, he⟩
    refine ⟨j - 1, List.mem_range.mpr (by omega), ?_⟩
    rw [show j - 1 + 1 = j by omega]
    simpa using he

/-! ### What a meaning with a check can answer -/

/-- A shift raises ShiftRange, or writes its result and advances. -/
theorem shiftUnder_cases (c : Config) (f : Word → Nat → Word) (rd rs rt : Reg) (s : State) :
    (∃ n, shiftPlaces c.shiftOver (s.readReg rt) = .ok n ∧
      shiftUnder c f rd rs rt s =
        .next (s.writeResult c .shift rd (s.readReg rs) (s.readReg rt) (f (s.readReg rs) n))) ∨
    (∃ e, shiftPlaces c.shiftOver (s.readReg rt) = .error e ∧
      shiftUnder c f rd rs rt s = .fault e) := by
  cases h : shiftPlaces c.shiftOver (s.readReg rt) with
  | ok n => exact .inl ⟨n, rfl, by simp [shiftUnder, h]⟩
  | error e => exact .inr ⟨e, rfl, by simp [shiftUnder, h, raise]⟩

/-- LOAD at an even address, and at an odd one. -/
theorem loadUnder_eq (c : Config) (rd rs : Reg) (off4 : BitVec 4) (s : State) :
    loadUnder c rd rs off4 s =
      if isOdd (effectiveAddress s rs off4) then
        .fault (.misalignedData (effectiveAddress s rs off4))
      else .next (s.writeReg rd (s.loadWord (effectiveAddress s rs off4))).nextPc := by
  simp only [loadUnder, checkData_eq]
  by_cases h : isOdd (effectiveAddress s rs off4) <;> simp [h, raise]

/-- STORE at an odd address, into the window, and elsewhere. -/
theorem storeUnder_eq (c : Config) (rd rs : Reg) (off4 : BitVec 4) (s : State) :
    storeUnder c rd rs off4 s =
      if isOdd (effectiveAddress s rs off4) then
        .fault (.misalignedData (effectiveAddress s rs off4))
      else if hitsWindow c.smcWindow s.pc (effectiveAddress s rs off4) then
        .fault (.smcHazard (effectiveAddress s rs off4))
      else .next (s.storeWord (effectiveAddress s rs off4) (s.readReg rd)).nextPc := by
  simp only [storeUnder, checkData_eq]
  by_cases h : isOdd (effectiveAddress s rs off4)
  · simp [h, raise]
  · by_cases h' : hitsWindow c.smcWindow s.pc (effectiveAddress s rs off4) <;> simp [h, h', raise]

/-! ### The cycle of a step -/

variable {dec : Word → Except DecodeError Instr} {run : Instr → State → Answer} {s t : State}

/-- A faulted machine answers its fault. -/
theorem cycle_faulted {f : Fault} (h : s.fault = some f) : cycle dec run s = .fault f := by
  simp [cycle, h]

/-- A halted machine answers the same state. -/
theorem cycle_halted (hf : s.fault = none) (hh : s.halted = true) : cycle dec run s = .next s := by
  simp [cycle, hf, hh]

/-- The cycle of a machine that takes a step. -/
theorem cycle_running (hf : s.fault = none) (hh : s.halted = false) :
    cycle dec run s =
      if isOdd s.pc then .fault (.misalignedFetch s.pc)
      else match dec s.fetch with
        | .ok i => run i s
        | .error _ => .fault (.refusedEncoding s.fetch) := by
  unfold cycle
  rw [hf, hh]
  cases dec s.fetch <;> rfl

/-- The cycle at an even pc whose word decodes. -/
theorem cycle_decoded {i : Instr} (hf : s.fault = none) (hh : s.halted = false)
    (hp : isOdd s.pc = false) (hi : dec s.fetch = .ok i) : cycle dec run s = run i s := by
  simp [cycle, hf, hh, hp, hi]

/-- What a cycle that answers a next state did: nothing, halted; or one decoded instruction. -/
theorem cycle_next (h : cycle dec run s = .next t) :
    (s.fault = none ∧ s.halted = true ∧ t = s) ∨
    (s.fault = none ∧ s.halted = false ∧ isOdd s.pc = false ∧
      ∃ i, dec s.fetch = .ok i ∧ run i s = .next t) := by
  cases hf : s.fault with
  | some f => rw [cycle_faulted hf] at h; cases h
  | none =>
    cases hh : s.halted with
    | true => rw [cycle_halted hf hh] at h; cases h; exact .inl ⟨rfl, rfl, rfl⟩
    | false =>
      rw [cycle_running hf hh] at h
      cases hp : isOdd s.pc with
      | true => rw [hp] at h; cases h
      | false =>
        rw [hp] at h
        cases hi : dec s.fetch with
        | ok i => rw [hi] at h; exact .inr ⟨rfl, rfl, rfl, i, rfl, h⟩
        | error e => rw [hi] at h; cases h

/-- What a cycle that answers a fault found: a recorded fault, an odd pc, a refused word, or an
instruction that raised it. -/
theorem cycle_fault {f : Fault} (h : cycle dec run s = .fault f) :
    s.fault = some f ∨
    (s.fault = none ∧ s.halted = false ∧
      ((isOdd s.pc = true ∧ f = .misalignedFetch s.pc) ∨
        (isOdd s.pc = false ∧
          ((∃ e, dec s.fetch = .error e ∧ f = .refusedEncoding s.fetch) ∨
            ∃ i, dec s.fetch = .ok i ∧ run i s = .fault f)))) := by
  cases hf : s.fault with
  | some g => rw [cycle_faulted hf] at h; cases h; exact .inl rfl
  | none =>
    cases hh : s.halted with
    | true => rw [cycle_halted hf hh] at h; cases h
    | false =>
      rw [cycle_running hf hh] at h
      refine .inr ⟨rfl, rfl, ?_⟩
      cases hp : isOdd s.pc with
      | true => rw [hp] at h; cases h; exact .inl ⟨rfl, rfl⟩
      | false =>
        rw [hp] at h
        refine .inr ⟨rfl, ?_⟩
        cases hi : dec s.fetch with
        | ok i => rw [hi] at h; exact .inr ⟨i, rfl, h⟩
        | error e => rw [hi] at h; cases h; exact .inl ⟨e, rfl, rfl⟩

/-- A cycle is refused only by the meaning of a decoded instruction. -/
theorem cycle_refused {r : Refusal} (h : cycle dec run s = .refused r) :
    ∃ i, dec s.fetch = .ok i ∧ run i s = .refused r := by
  cases hf : s.fault with
  | some g => rw [cycle_faulted hf] at h; cases h
  | none =>
    cases hh : s.halted with
    | true => rw [cycle_halted hf hh] at h; cases h
    | false =>
      rw [cycle_running hf hh] at h
      cases hp : isOdd s.pc with
      | true => rw [hp] at h; cases h
      | false =>
        rw [hp] at h
        cases hi : dec s.fetch with
        | ok i => rw [hi] at h; exact ⟨i, rfl, h⟩
        | error e => rw [hi] at h; cases h

/-! ### Recording a fault -/

@[simp] theorem stateAfter_next : stateAfter s (.next t) = t := rfl
@[simp] theorem stateAfter_fault (f : Fault) : stateAfter s (.fault f) = s.recordFault f := rfl
@[simp] theorem stateAfter_refused (r : Refusal) : stateAfter s (.refused r) = s := rfl

/-- Recording the fault that is already recorded changes nothing. -/
theorem recordFault_of_eq {f : Fault} (h : s.fault = some f) : s.recordFault f = s := by
  cases s
  simp_all [State.recordFault]

end Sys2Proof.Machine
end

