-- ==== Sys2Proof/Laws/PerInstr.lean ====
section
/-!
SUPPORT. Facts about every instruction as syntax, one lemma per constructor.
`OpcodeRow`: the word of an instruction selects the row of 30_encoding.md R46 that bears its
mnemonic (for CALL, RET, PUSH and POP the source's pattern, which decode never selects).
-/

namespace Sys2Proof.Laws.OpcodeRow

/-- Some row of R46 with the instruction's mnemonic is selected by its word. -/
def Statement (i : Instr) : Prop :=
  ∃ r ∈ opcodeRows ++ extendedRows, r.name = i.mnemonic ∧ encode i &&& r.mask = r.value

/-- A word selects a primary row when its opcode digit is the row's. -/
theorem primary_of_op {w : Word} {k : BitVec 4} (h : (opField w).val = k.toNat) :
    w &&& 0xF000#16 = k ++ 0#12 := by
  have hk : w.extractLsb' 12 4 = k := BitVec.eq_of_toNat_eq h
  apply BitVec.eq_of_getLsbD_eq
  intro i hi
  rw [BitVec.getLsbD_append, BitVec.getLsbD_and, ← hk]
  by_cases h12 : i < 12
  · have : (0xF000#16).getLsbD i = false := by
      interval_cases i <;> rfl
    simp [h12, this]
  · have : (0xF000#16).getLsbD i = true := by
      interval_cases i <;> first | omega | rfl
    have h4 : i - 12 < 4 := by omega
    simp [h12, h4, this, show 12 + (i - 12) = i by omega]

/-- A primary row, found by its place in the table, is selected by a word with its opcode digit. -/
theorem of_op {i : Instr} (n : Fin 21) (k : BitVec 4) (ho : (opField (encode i)).val = k.toNat)
    (hname : (opcodeRows ++ extendedRows)[n].name = i.mnemonic)
    (hmask : (opcodeRows ++ extendedRows)[n].mask = 0xF000#16)
    (hvalue : (opcodeRows ++ extendedRows)[n].value = k ++ 0#12) : Statement i :=
  ⟨(opcodeRows ++ extendedRows)[n], List.getElem_mem _, hname, by
    rw [hmask, hvalue]; exact primary_of_op ho⟩

/-- The word of one of the four patterns of the source selects its row, whatever its low byte. -/
theorem extended_and (k : Fin 4) (xx : BitVec 8) :
    packI 0xF#4 ⟨k.val, by omega⟩ xx &&& 0xFF00#16 = BitVec.ofNat 8 (0xF0 + k.val) ++ 0#8 := by
  apply BitVec.eq_of_getLsbD_eq
  intro i hi
  rw [BitVec.getLsbD_append, BitVec.getLsbD_and]
  unfold packI
  rw [BitVec.getLsbD_append]
  by_cases h8 : i < 8
  · have : (0xFF00#16).getLsbD i = false := by interval_cases i <;> rfl
    simp [h8, this]
  · have : (0xFF00#16).getLsbD i = true := by
      interval_cases i <;> first | omega | rfl
    rw [if_neg h8, if_neg h8, this, Bool.and_true]
    have h : i - 8 < 8 := by omega
    generalize i - 8 = j at h
    fin_cases k <;> interval_cases j <;> rfl

theorem nop : Statement .nop := of_op 1 0x0 rfl rfl rfl rfl
theorem add (rd rs rt : Reg) : Statement (.add rd rs rt) :=
  of_op 2 0x1 (by simp [encode]) rfl rfl rfl
theorem addi (rd : Reg) (imm8 : BitVec 8) : Statement (.addi rd imm8) :=
  of_op 3 0x2 (by simp [encode]) rfl rfl rfl
theorem sub (rd rs rt : Reg) : Statement (.sub rd rs rt) :=
  of_op 4 0x3 (by simp [encode]) rfl rfl rfl
theorem and (rd rs rt : Reg) : Statement (.and rd rs rt) :=
  of_op 5 0x4 (by simp [encode]) rfl rfl rfl
theorem or (rd rs rt : Reg) : Statement (.or rd rs rt) :=
  of_op 6 0x5 (by simp [encode]) rfl rfl rfl
theorem xor (rd rs rt : Reg) : Statement (.xor rd rs rt) :=
  of_op 7 0x6 (by simp [encode]) rfl rfl rfl
theorem not (rd rs : Reg) : Statement (.not rd rs) :=
  of_op 8 0x7 (by simp [encode]) rfl rfl rfl
theorem shl (rd rs rt : Reg) : Statement (.shl rd rs rt) :=
  of_op 9 0x8 (by simp [encode]) rfl rfl rfl
theorem shr (rd rs rt : Reg) : Statement (.shr rd rs rt) :=
  of_op 10 0x9 (by simp [encode]) rfl rfl rfl
theorem load (rd rs : Reg) (off4 : BitVec 4) : Statement (.load rd rs off4) :=
  of_op 11 0xA (by simp [encode]) rfl rfl rfl
theorem store (rd rs : Reg) (off4 : BitVec 4) : Statement (.store rd rs off4) :=
  of_op 12 0xB (by simp [encode]) rfl rfl rfl
theorem loadi (rd : Reg) (imm8 : BitVec 8) : Statement (.loadi rd imm8) :=
  of_op 13 0xC (by simp [encode]) rfl rfl rfl
theorem jmp (addr12 : BitVec 12) : Statement (.jmp addr12) :=
  of_op 14 0xD (by simp [encode]) rfl rfl rfl
theorem beq (rc : Reg) (off8 : BitVec 8) : Statement (.beq rc off8) :=
  of_op 15 0xE (by simp [encode]) rfl rfl rfl
theorem bne (rc : Reg) (off8 : BitVec 8) : Statement (.bne rc off8) :=
  of_op 16 0xF (by simp [encode]) rfl rfl rfl
theorem halt : Statement .halt := ⟨opcodeRows[0], by simp [opcodeRows], rfl, rfl⟩
theorem call (xx : BitVec 8) : Statement (.call xx) :=
  ⟨extendedRows[0], by simp [extendedRows], rfl, extended_and 0 xx⟩
theorem ret (xx : BitVec 8) : Statement (.ret xx) :=
  ⟨extendedRows[1], by simp [extendedRows], rfl, extended_and 1 xx⟩
theorem push (xx : BitVec 8) : Statement (.push xx) :=
  ⟨extendedRows[2], by simp [extendedRows], rfl, extended_and 2 xx⟩
theorem pop (xx : BitVec 8) : Statement (.pop xx) :=
  ⟨extendedRows[3], by simp [extendedRows], rfl, extended_and 3 xx⟩

end Sys2Proof.Laws.OpcodeRow
end

