-- ==== Sys2Proof/Laws/Step.lean ====
section
/-!
SUPPORT. The step and the decoder: the machine is the configured machine at the defaults, and what
the decoder can answer.
-/

namespace Sys2Proof.Machine

/-- `exec` is the configured meaning at the defaults. -/
theorem execUnder_config (i : Instr) (s : State) : execUnder config i s = exec i s := by
  cases i <;> rfl

/-- `step` is the configured step at the defaults. -/
theorem stepUnder_config (s : State) : stepUnder config s = step s := by
  have h : execUnder config = exec := funext fun i => funext fun s => execUnder_config i s
  simp only [stepUnder, step, h]
  rfl

/-! ### The decoder -/

/-- HALT's word is tested first (30_encoding.md R47). -/
@[simp] theorem decodeUnder_halt (x : ExtSpace) : decodeUnder x 0xFFFF#16 = .ok .halt := rfl

/-- Any other word is decoded by its opcode digit. -/
theorem decodeUnder_primary (x : ExtSpace) {w : Word} (h : w ≠ 0xFFFF#16) :
    decodeUnder x w = decodePrimary x (opField w).val w := if_neg h

/-- A word whose opcode digit is not 0xF is not HALT's. -/
theorem ne_halt_of_op {w : Word} (h : (opField w).val ≠ 15) : w ≠ 0xFFFF#16 :=
  fun e => h (by rw [e]; rfl)

/-- A primary decode under `bne` is no error, so the default decoder is total. -/
theorem decodePrimary_bne_ok (op : Nat) (w : Word) : ∃ i, decodePrimary .bne op w = .ok i := by
  unfold decodePrimary
  split <;> exact ⟨_, rfl⟩

/-- The 0xF digit, the one place where EXT_SPACE matters. -/
theorem decodePrimary_contested (x : ExtSpace) (w : Word) :
    decodePrimary x 15 w =
      if x = .refuse ∧ (rdField w).val ≤ 3 then .error (.refused w)
      else .ok (.bne (rdField w) (low8Field w)) := rfl

/-- The only error of a decoder on a word is a contested word under `refuse` (R47). -/
theorem decodeUnder_error {x : ExtSpace} {w : Word} {e : DecodeError}
    (h : decodeUnder x w = .error e) :
    e = .refused w ∧ x = .refuse ∧ w ≠ 0xFFFF#16 ∧ (rdField w).val ≤ 3 ∧
      (opField w).val = 15 := by
  by_cases hw : w = 0xFFFF#16
  · rw [hw] at h; cases h
  · rw [decodeUnder_primary x hw] at h
    have hlt := (opField w).isLt
    generalize (opField w).val = n at h hlt
    interval_cases n <;> first | cases h | skip
    by_cases hc : x = .refuse ∧ (rdField w).val ≤ 3
    · rw [decodePrimary_contested, if_pos hc] at h
      cases h
      exact ⟨rfl, hc.1, hw, hc.2, rfl⟩
    · rw [decodePrimary_contested, if_neg hc] at h
      cases h

/-! ### Runs -/

@[simp] theorem runFor_zero (s : State) : runFor 0 s = s := rfl

theorem runFor_succ (n : Nat) (s : State) : runFor (n + 1) s = runFor n (advance s) := rfl

theorem runFor_add (m n : Nat) (s : State) : runFor (m + n) s = runFor n (runFor m s) := by
  simp only [runFor, Nat.add_comm m n, Function.iterate_add_apply]

end Sys2Proof.Machine
end

