-- ==== Sys2Proof/Tests/Slice0.lean ====
section
/-!
SUPPORT. Tests of the model against spec/95_test_vectors.md (the vector is named in each docstring),
and a witness for the hypotheses of every obligation that has some.
-/

namespace Sys2Proof.Tests

open Sys2Proof Sys2Proof.Machine

/-! ### Helpers -/

/-- A machine at `pc` with these registers set, on top of the reset state. -/
def start (pc : Word) (regs : List (Reg × Word)) : State :=
  regs.foldl (fun s p => s.writeReg p.1 p.2) (State.reset.setPc pc)

/-- The answer to one step that runs the word `w`. -/
def ran (w : Nat) (s : State) : Answer := step (s.withFetchWord 16 w)

/-- A view of the next state. -/
def seen {α : Type} (a : Answer) (view : State → α) : Option α :=
  match a with
  | .next t => some (view t)
  | .fault _ => none
  | .refused _ => none

/-- The fault of an answer. -/
def faulted (a : Answer) : Option Fault :=
  match a with
  | .fault f => some f
  | .next _ => none
  | .refused _ => none

/-- The refusal of an answer. -/
def refusedWith (a : Answer) : Option Refusal :=
  match a with
  | .refused r => some r
  | .next _ => none
  | .fault _ => none

/-- A register, sr and pc of a state. -/
def regSrPc (r : Reg) (s : State) : Word × Word × Word := (s.readReg r, s.sr, s.pc)

/-- The instruction a word decodes to, if any. -/
def decoded (x : ExtSpace) (w : Word) : Option Instr := (decodeUnder x w).toOption

/-! ### WellFormed -/

/-- An ill-formed term for each check. -/
theorem test_wellFormed_refuses :
    (Instr.call 0x12#8).wellFormed .bne = false ∧ (Instr.ret 0#8).wellFormed .bne = false ∧
    (Instr.push 0#8).wellFormed .bne = false ∧ (Instr.pop 0#8).wellFormed .bne = false ∧
    (Instr.bne 15 0xFF#8).wellFormed .bne = false ∧ (Instr.bne 0 0#8).wellFormed .refuse = false ∧
    (Instr.bne 3 0xFF#8).wellFormed .refuse = false := by decide

theorem test_wellFormed_accepts :
    (Instr.bne 3 0xFF#8).wellFormed .bne = true ∧ (Instr.bne 4 0#8).wellFormed .refuse = true ∧
    (Instr.bne 15 0xFE#8).wellFormed .bne = true ∧ Instr.halt.wellFormed .refuse = true ∧
    (Instr.load 3 2 0x4#4).wellFormed .bne = true := by decide

/-! ### Decode: every constructor's word, written out from 30_encoding.md R40 to R46 (2.6) -/

theorem test_decode_arithmetic :
    decode 0b0000000000000000#16 = .ok .nop ∧ decode 0x0ABC#16 = .ok .nop ∧
    decode 0b0001001100010010#16 = .ok (.add 3 1 2) ∧
    decode 0b0010001101000010#16 = .ok (.addi 3 0x42#8) ∧
    decode 0b0011001100100001#16 = .ok (.sub 3 2 1) := ⟨rfl, rfl, rfl, rfl, rfl⟩

theorem test_decode_logic :
    decode 0b0100010100100100#16 = .ok (.and 5 2 4) ∧
    decode 0b0101001100010100#16 = .ok (.or 3 1 4) ∧
    decode 0b0110001100010010#16 = .ok (.xor 3 1 2) ∧
    decode 0b0111001100011111#16 = .ok (.not 3 1) := ⟨rfl, rfl, rfl, rfl⟩

theorem test_decode_shift :
    decode 0b1000000100010100#16 = .ok (.shl 1 1 4) ∧
    decode 0b1001001000100100#16 = .ok (.shr 2 2 4) := ⟨rfl, rfl⟩

theorem test_decode_memory :
    decode 0b1010001100100100#16 = .ok (.load 3 2 0x4#4) ∧
    decode 0b1011000100000000#16 = .ok (.store 1 0 0x0#4) ∧
    decode 0b1100010101000010#16 = .ok (.loadi 5 0x42#8) := ⟨rfl, rfl, rfl⟩

theorem test_decode_control :
    decode 0b1101000100000000#16 = .ok (.jmp 0x100#12) ∧
    decode 0b1110000100010000#16 = .ok (.beq 1 0x10#8) ∧
    decode 0b1111000111111100#16 = .ok (.bne 1 0xFC#8) ∧
    decode 0b1111111111111110#16 = .ok (.bne 15 0xFE#8) ∧
    decode 0b1111111111111111#16 = .ok .halt := ⟨rfl, rfl, rfl, rfl, rfl⟩

/-- The contested words, under both settings of EXT_SPACE (2.6). -/
theorem test_decode_contested :
    decode 0xF000#16 = .ok (.bne 0 0x00#8) ∧ decode 0xF2AA#16 = .ok (.bne 2 0xAA#8) ∧
    decodeUnder .refuse 0xF000#16 = .error (.refused 0xF000#16) ∧
    decodeUnder .refuse 0xF3FF#16 = .error (.refused 0xF3FF#16) ∧
    decodeUnder .refuse 0xF400#16 = .ok (.bne 4 0x00#8) ∧
    decodeUnder .refuse 0xFFFF#16 = .ok .halt := ⟨rfl, rfl, rfl, rfl, rfl, rfl⟩

/-- Low byte first, one word for each instruction (30_encoding.md R38). -/
theorem test_decode_bytes :
    decodeBytes [0x12#8, 0x13#8, 0xFF#8] = .ok (.add 3 1 2, [0xFF#8]) ∧
    decodeBytes [0x12#8] = .error .truncated ∧ decodeBytes [] = .error .truncated ∧
    decodeTableWord 16 0xA324 = some (.load 3 2 0x4#4) := ⟨rfl, rfl, rfl, rfl⟩

/-- Words of the source's examples, encoded (S1, S2, S7, S8, S14; canonical spare bits, R50). -/
theorem test_encode :
    encode (.add 3 1 2) = 0x1312#16 ∧ encode (.addi 3 0x42#8) = 0x2342#16 ∧
    encode (.loadi 5 0x42#8) = 0xC542#16 ∧ encode (.load 3 2 0x4#4) = 0xA324#16 ∧
    encode (.bne 1 0xFC#8) = 0xF1FC#16 ∧ encode (.jmp 0x100#12) = 0xD100#16 ∧
    encode (.not 3 1) = 0x7310#16 ∧ encode .nop = 0x0000#16 := by decide

/-! ### Arithmetic (2.1) -/

/-- A18 and A19. -/
theorem test_nop_wraps_and_ignores_bits :
    seen (ran 0x0000 (start 0xFFFE#16 [])) (·.pc) = some 0x0000#16 ∧
    seen (ran 0x0ABC (start 0x0010#16 [])) (·.pc) = some 0x0012#16 := by decide

/-- A4: carry and overflow. -/
theorem test_add_carry_and_overflow :
    seen (ran 0x1312 (start 0x0010#16 [(1, 0x8000#16), (2, 0x8000#16)])) (regSrPc 3) =
      some (0x0000#16, 0x000D#16, 0x0012#16) := by decide

/-- A6: a write to R0 is discarded, the flags are written. -/
theorem test_add_into_r0 :
    seen (ran 0x1012 (start 0x0010#16 [(1, 0xFFFF#16), (2, 0x0001#16)])) (regSrPc 0) =
      some (0x0000#16, 0x0005#16, 0x0012#16) := by decide

/-- A8: the immediate is -1. -/
theorem test_addi_minus_one :
    seen (ran 0x23FF (start 0x0010#16 [(3, 0x0004#16)])) (regSrPc 3) =
      some (0x0003#16, 0x0004#16, 0x0012#16) := by decide

/-- A10: signed overflow. -/
theorem test_addi_overflow :
    seen (ran 0x237F (start 0x0010#16 [(3, 0x7FFF#16)])) (regSrPc 3) =
      some (0x807E#16, 0x000A#16, 0x0012#16) := by decide

/-- A13: the borrow sets C. -/
theorem test_sub_borrow :
    seen (ran 0x3312 (start 0x0010#16 [(2, 0x0001#16)])) (regSrPc 3) =
      some (0xFFFF#16, 0x0006#16, 0x0012#16) := by decide

/-- A14: signed overflow, no borrow. -/
theorem test_sub_overflow :
    seen (ran 0x3312 (start 0x0010#16 [(1, 0x8000#16), (2, 0x0001#16)])) (regSrPc 3) =
      some (0x7FFF#16, 0x0008#16, 0x0012#16) := by decide

/-! ### Logic (2.2) -/

/-- L1: C and V are kept. -/
theorem test_and_keeps_c_and_v :
    seen (ran 0x4312 ((start 0x0010#16 [(1, 0xF0F0#16), (2, 0xFF00#16)]).setFlags 0xC#4))
      (regSrPc 3) = some (0xF000#16, 0x000E#16, 0x0012#16) := by decide

/-- L9: the word the source mislabels as a LOAD. -/
theorem test_or :
    seen (ran 0x5314 (start 0x0010#16 [(1, 0x0101#16), (4, 0x1010#16)])) (·.readReg 3) =
      some 0x1111#16 := by decide

/-- L3. -/
theorem test_xor_keeps_c :
    seen (ran 0x6311 ((start 0x0010#16 [(1, 0xABCD#16)]).setFlags 0x4#4)) (regSrPc 3) =
      some (0x0000#16, 0x0005#16, 0x0012#16) := by decide

/-- L4. -/
theorem test_xor :
    seen (ran 0x6312 (start 0x0010#16 [(1, 0xFF00#16), (2, 0x0FF0#16)])) (regSrPc 3) =
      some (0xF0F0#16, 0x0002#16, 0x0012#16) := by decide

/-- L6: rt is ignored. -/
theorem test_not_ignores_rt :
    seen (ran 0x731F (start 0x0010#16 [(1, 0x00FF#16), (15, 0x1234#16)])) (regSrPc 3) =
      some (0xFF00#16, 0x0002#16, 0x0012#16) := by decide

/-! ### Shifts (2.3) -/

/-- H3: the top bit is lost and not kept in C. -/
theorem test_shl :
    seen (ran 0x8312 (start 0x0010#16 [(1, 0x8001#16), (2, 0x0001#16)])) (regSrPc 3) =
      some (0x0002#16, 0x0000#16, 0x0012#16) := by decide

/-- H4: an amount of 65535. -/
theorem test_shl_far :
    seen (ran 0x8312 (start 0x0010#16 [(1, 0xFFFF#16), (2, 0xFFFF#16)])) (regSrPc 3) =
      some (0x0000#16, 0x0001#16, 0x0012#16) := by decide

/-- H7: the shift is logical. -/
theorem test_shr :
    seen (ran 0x9312 (start 0x0010#16 [(1, 0x8000#16), (2, 0x0001#16)])) (regSrPc 3) =
      some (0x4000#16, 0x0000#16, 0x0012#16) := by decide

/-- H10: an amount of 0; C and V are kept. -/
theorem test_shr_by_zero :
    seen (ran 0x9312 ((start 0x0010#16 [(1, 0x8000#16)]).setFlags 0xC#4)) (regSrPc 3) =
      some (0x8000#16, 0x000E#16, 0x0012#16) := by decide

/-- H2 and H7 under the other settings of SHIFT_OVER and SHR_FILL. -/
theorem test_shift_parameters :
    seen (execUnder { config with shiftOver := .mod16 } (.shl 3 1 2)
      (start 0x0010#16 [(1, 0x0001#16), (2, 0x0010#16)])) (·.readReg 3) = some 0x0001#16 ∧
    faulted (execUnder { config with shiftOver := .fault } (.shl 3 1 2)
      (start 0x0010#16 [(1, 0x0001#16), (2, 0x0010#16)])) = some (.shiftRange 0x0010#16) ∧
    seen (execUnder { config with shrFill := .arithmetic } (.shr 3 1 2)
      (start 0x0010#16 [(1, 0x8000#16), (2, 0x0001#16)])) (·.readReg 3) = some 0xC000#16 := by
  decide

/-! ### Memory (2.4) -/

/-- M3: the effective address wraps, and the offset 0xA is +10. -/
theorem test_load_wraps :
    seen (ran 0xA31A ((start 0x0010#16 [(1, 0xFFF8#16)]).storeWord 0x0002#16 0xABCD#16))
      (regSrPc 3) = some (0xABCD#16, 0x0000#16, 0x0012#16) := by decide

/-- M1's bytes, low byte first, and M4: an odd address faults. -/
theorem test_load_bytes_and_odd :
    seen (ran 0xA324 { start 0x0010#16 [(2, 0x0100#16)] with
      mem := [(0x104, 0x34#8), (0x105, 0x12#8)] }) (·.readReg 3) = some 0x1234#16 ∧
    faulted (ran 0xA311 (start 0x0010#16 [(1, 0x0100#16)])) =
      some (.misalignedData 0x0101#16) := by decide

/-- M11: the highest word of memory. -/
theorem test_store_top :
    seen (ran 0xB31E (start 0x0010#16 [(1, 0xFFF0#16), (3, 0x1234#16)]))
      (fun t => (t.mem.read 0xFFFE#16, t.mem.read 0xFFFF#16, t.pc)) =
        some (0x34#8, 0x12#8, 0x0012#16) := by decide

/-- M10: R0 stores zero; M9: an odd address faults. -/
theorem test_store_zero_and_odd :
    seen (ran 0xB010 { start 0x0010#16 [(1, 0x0100#16)] with
      mem := [(0x100, 0xAA#8), (0x101, 0xBB#8)] })
      (fun t => (t.mem.read 0x0100#16, t.mem.read 0x0101#16)) = some (0x00#8, 0x00#8) ∧
    faulted (ran 0xB31F (start 0x0010#16 [(1, 0x0100#16), (3, 0xBEEF#16)])) =
      some (.misalignedData 0x010F#16) := by decide

/-- M13: the immediate is sign-extended; M15: R0. -/
theorem test_loadi :
    seen (ran 0xC180 (start 0x0010#16 [])) (regSrPc 1) =
      some (0xFF80#16, 0x0000#16, 0x0012#16) ∧
    seen (ran 0xC0FF (start 0x0010#16 [])) (regSrPc 0) =
      some (0x0000#16, 0x0000#16, 0x0012#16) := by decide

/-! ### Control flow and HALT (2.5) -/

/-- J3: the high 4 bits are cleared. -/
theorem test_jmp :
    seen (ran 0xDFFE (start 0xF000#16 [])) (·.pc) = some 0x0FFE#16 := by decide

/-- B7: offset -128, wrapping; B2: not taken. -/
theorem test_beq :
    seen (ran 0xE180 (start 0x0010#16 [])) (·.pc) = some 0xFF90#16 ∧
    seen (ran 0xE110 (start 0x0020#16 [(1, 0x0001#16)])) (·.pc) = some 0x0022#16 := by decide

/-- B3: taken; B9: the word nearest to HALT's. -/
theorem test_bne :
    seen (ran 0xF3FC (start 0x0008#16 [(3, 0x0009#16)])) (·.pc) = some 0x0004#16 ∧
    seen (ran 0xFFFE (start 0x0020#16 [(15, 0x0001#16)])) (·.pc) = some 0x001E#16 := by decide

/-- B4 and B6: not taken. -/
theorem test_bne_not_taken :
    seen (ran 0xF3FC (start 0x0008#16 [])) (·.pc) = some 0x000A#16 ∧
    seen (ran 0xF0FC (start 0x0020#16 [])) (·.pc) = some 0x0022#16 := by decide

/-- X1. -/
theorem test_halt :
    seen (ran 0xFFFF (start 0x0020#16 [])) (·.halted) = some true := by decide

/-- X2, B11 and J2: an odd pc faults at the fetch. -/
theorem test_odd_pc :
    faulted (step (start 0x0021#16 [])) = some (.misalignedFetch 0x0021#16) ∧
    seen (ran 0xE103 (start 0x0020#16 [])) (·.pc) = some 0x0023#16 ∧
    seen (ran 0xD101 (start 0x0020#16 [])) (·.pc) = some 0x0101#16 := by decide

/-- The four operations without a meaning are refused by name (45_extended.md R84 to R87). -/
theorem test_extended_refused :
    refusedWith (exec (.call 0#8) State.reset) = some .callHasNoOperation ∧
    refusedWith (exec (.ret 0#8) State.reset) = some .retHasNoOperation ∧
    refusedWith (exec (.push 0#8) State.reset) = some .pushHasNoOperation ∧
    refusedWith (exec (.pop 0#8) State.reset) = some .popHasNoOperation := by decide

/-- EXT_SPACE = refuse: executing a contested word raises RefusedEncoding (R47). -/
theorem test_refused_encoding :
    faulted (stepUnder { config with extSpace := .refuse }
      ((start 0x0010#16 []).withFetchWord 16 0xF2AA)) = some (.refusedEncoding 0xF2AA#16) := by
  decide

/-! ### The assembler -/

/-- S9, the source's own words. -/
theorem test_assemble_example_1 :
    assemble config ("LOADI R1, 0x05 ; R1 = 5\nLOADI R2, 0x03\nADD R3, R1, R2\nHALT".toList) =
      .ok [0xC105#16, 0xC203#16, 0x1312#16, 0xFFFF#16] := by rfl

/-- S14: a backward branch to a label, offset -4. -/
theorem test_assemble_label :
    assemble config ("loop: LOAD R1, R2, 0x0\nADDI R1, 0x1\nBNE R1, loop\n".toList) =
      .ok [0xA120#16, 0x2101#16, 0xF1FC#16] := by rfl

/-- P8: the source's prologue is refused, naming PUSH (60_exceptions.md R94). -/
theorem test_assemble_prologue :
    assemble config (textOf prologue) = .error (.noEncodingFor .push) := by rfl

/-- S12: the offset does not fit; and BNE RF, 0xFF is HALT's word (44_control_flow.md R82). -/
theorem test_assemble_refuses :
    assemble config "STORE R1, R0, 0x20".toList = .error (.outOfRange 32) ∧
    assemble config "BNE RF, 0xFF".toList = .error (.notEncodable (.bne 15 0xFF#8)) ∧
    assemble config "ADD LR, R1, R2".toList = .error (.specialRegister .lr) ∧
    assemble config "ADD R1, R2".toList = .error (.operandCount .add) :=
  ⟨by rfl, by rfl, by rfl, by rfl⟩

/-- S15: the spellings of 42; and the register names of R56. -/
theorem test_literals_and_registers :
    (["42", "0x2A", "0h2A", "0b101010"].map (fun t => integerOf t.toList)) =
      [some 42, some 42, some 42, some 42] ∧
    (["R0", "R9", "RA", "RF", "R10", "R15", "R16", "PC"].map (fun t => registerOf t.toList)) =
      [some 0, some 9, some 10, some 15, some 10, some 15, none, none] := by decide

/-- Operand order (R55), and what log 34 and log 35 settle: a label after the last instruction, and a
text with two faults. -/
theorem test_assemble_order_and_open_cases :
    assemble config "SUB R3, R2, R1\nSTORE R4, R5, 6".toList = .ok [0x3321#16, 0xB456#16] ∧
    assemble config "BEQ R1, end\nend:".toList = .ok [0xE102#16] ∧
    assemble config "PUSH LR\nADD R1, Foo".toList = .error (.badOperand "Foo".toList) :=
  ⟨by rfl, by rfl, by rfl⟩

/-- The spellings that log 36 and log 37 settle. -/
theorem test_assemble_open_spellings :
    assemble config "loop : ADD R1 , R2 , R3".toList = .ok [0x1123#16] ∧
    assemble config "loop:ADD R1,R2,R3".toList = .ok [0x1123#16] ∧
    assemble config "LOADI R1, 042".toList = .ok [0xC12A#16] :=
  ⟨by rfl, by rfl, by rfl⟩

/-! ### Witnesses: states and operands that meet the hypotheses of each obligation -/

/-- A machine at 0x0010 with a word to run, and some registers set. -/
def ready (w : Nat) (regs : List (Reg × Word)) : State := (start 0x0010#16 regs).withFetchWord 16 w

theorem witness_MemReadIsLittleEndian : (0xFFFE#16 : Word).toNat % 2 = 0 := by decide

theorem witness_MemWriteChangesTwoBytes :
    (0xFFFE#16 : Word).toNat % 2 = 0 ∧ (0x0000#16 : Word) ≠ 0xFFFE#16 ∧
      (0x0000#16 : Word) ≠ 0xFFFE#16 + 1#16 := by decide

theorem witness_CanonicalMemoriesThatReadAlikeAreEqual :
    ∃ m n : Memory, m ≠ [] ∧ m.wf ∧ n.wf ∧ ∀ a : Word, m.read a = n.read a :=
  ⟨[(0, 0x01#8), (65535, 0xFF#8)], [(0, 0x01#8), (65535, 0xFF#8)], by decide, by decide, by decide,
    fun _ => rfl⟩

theorem witness_DecodedOperandsAreTheWordsFields : ∃ w i, decode w = .ok i :=
  ⟨0xB3F1#16, .store 3 15 0x1#4, rfl⟩

/-- A branch that is not taken; and a list shorter than a word. -/
theorem witness_EveryInstructionIsOneWord :
    (∃ (s t : State) (i : Instr), s.running = true ∧ s.pc.toNat % 2 = 0 ∧
      decode s.fetch = .ok i ∧ leavesSequence s i = false ∧ step s = .next t) ∧
    [0x12#8].length < 2 :=
  ⟨⟨ready 0xE110 [(1, 0x0001#16)], _, .beq 1 0x10#8, by decide, by decide, rfl, by decide, rfl⟩,
    by decide⟩

theorem witness_DecodeFollowsTheOpcodeMap : ∃ w i, decode w = .ok i := ⟨0xFFFF#16, .halt, rfl⟩

/-- The two ends of the contested words, and the words next to them. -/
theorem witness_RefuseSettingRefusesTheContestedWords :
    (0xF000 ≤ (0xF000#16 : Word).toNat ∧ (0xF000#16 : Word).toNat ≤ 0xF3FF) ∧
    (0xF000 ≤ (0xF3FF#16 : Word).toNat ∧ (0xF3FF#16 : Word).toNat ≤ 0xF3FF) ∧
    ¬(0xF000 ≤ (0xEFFF#16 : Word).toNat ∧ (0xEFFF#16 : Word).toNat ≤ 0xF3FF) ∧
    ¬(0xF000 ≤ (0xF400#16 : Word).toNat ∧ (0xF400#16 : Word).toNat ≤ 0xF3FF) := by decide

theorem witness_StepRunsTheDecodedInstruction :
    ∃ (s : State) (i : Instr), s.running = true ∧ s.pc.toNat % 2 = 0 ∧
      decode (s.mem.read (s.pc + 1#16) ++ s.mem.read s.pc) = .ok i :=
  ⟨ready 0xB31E [], .store 3 1 0xE#4, by decide, by decide, rfl⟩

theorem witness_StepAtAnOddPcFaults :
    (start 0x0021#16 []).running = true ∧ (start 0x0021#16 []).pc.toNat % 2 = 1 := by decide

theorem witness_PlacedWordRunsNext :
    decode 0x0FFF#16 = .ok .nop ∧ State.reset.running = true ∧ State.reset.pc.toNat % 2 = 0 :=
  ⟨rfl, by decide, by decide⟩

theorem witness_TerminalStatesAreFinal :
    State.reset.halt.running = false ∧
      (State.reset.recordFault (.misalignedFetch 0x0021#16)).running = false := by decide

theorem witness_AFaultChangesNothingAndEndsTheRun :
    (∃ (c : Config) (s : State), s.running = true ∧ c.smcWindow = 3 ∧
      stepUnder c s = .fault (.smcHazard 0x0016#16)) ∧
    ∃ (s : State) (f : Fault), s.running = true ∧ step s = .fault f :=
  ⟨⟨{ config with smcWindow := 3 }, ready 0xB310 [(1, 0x0016#16)], by decide, rfl, rfl⟩,
    ready 0xA311 [(1, 0x0100#16)], .misalignedData 0x0101#16, by decide, rfl⟩

/-- Both faults of the table, raised by a running machine. -/
theorem witness_FaultsAreExactlyTheTwoAlwaysPossible :
    ((start 0x0021#16 []).running = true ∧ (start 0x0021#16 []).pc.toNat % 2 = 1) ∧
    (ready 0xB31F [(1, 0x0100#16)]).running = true ∧
    (ready 0xB31F [(1, 0x0100#16)]).pc.toNat % 2 = 0 ∧
    decode (ready 0xB31F [(1, 0x0100#16)]).fetch = .ok (.store 3 1 0xF#4) ∧
    (effectiveAddress (ready 0xB31F [(1, 0x0100#16)]) 1 0xF#4).toNat % 2 = 1 :=
  ⟨by decide, by decide, by decide, rfl, by decide⟩

/-- Each fault that a parameter enables, raised by a running machine at an even pc. -/
theorem witness_FaultsAreExactlyTheTableUnderAnyParameters :
    (∃ s, s.running = true ∧ stepUnder { config with extSpace := .refuse } s =
      .fault (.refusedEncoding 0xF3FF#16)) ∧
    (∃ s, s.running = true ∧ stepUnder { config with smcWindow := 3 } s =
      .fault (.smcHazard 0x0016#16)) ∧
    (∃ s, s.running = true ∧ stepUnder { config with shiftOver := .fault } s =
      .fault (.shiftRange 0x0010#16)) :=
  ⟨⟨ready 0xF3FF [], by decide, rfl⟩, ⟨ready 0xB310 [(1, 0x0016#16)], by decide, rfl⟩,
    ⟨ready 0x9312 [(2, 0x0010#16)], by decide, rfl⟩⟩

/-- An odd pc from each of the three transfers. -/
theorem witness_AnOddPcComesFromATransfer :
    (∃ t, step (ready 0xD101 []) = .next t ∧ t.pc.toNat % 2 = 1) ∧
    (∃ t, step (ready 0xE103 []) = .next t ∧ t.pc.toNat % 2 = 1) ∧
    (∃ t, step (ready 0xF1FF [(1, 0x0001#16)]) = .next t ∧ t.pc.toNat % 2 = 1) :=
  ⟨⟨_, rfl, by decide⟩, ⟨_, rfl, by decide⟩, ⟨_, rfl, by decide⟩⟩

theorem witness_NopOnlyAdvances : (0x0FFF#16 : Word).toNat ≤ 0x0FFF := by decide

/-- The three clauses, at the amounts where they meet. -/
theorem witness_ShiftOverParameter :
    (({ config with shiftOver := .fault } : Config).shiftOver = .fault ∧
      16 ≤ ((start 0#16 [(2, 0x0010#16)]).readReg 2).toNat) ∧
    (({ config with shiftOver := .mod16 } : Config).shiftOver = .mod16 ∧
      ({ config with shiftOver := .mod16 } : Config).shrFill = .logical) ∧
    (((start 0#16 [(2, 0x000F#16)]).readReg 2).toNat < 16 ∧
      ({ config with shiftOver := .fault } : Config).flags = config.flags ∧
      ({ config with shiftOver := .fault } : Config).shrFill = .logical) :=
  ⟨⟨rfl, by decide⟩, ⟨rfl, rfl⟩, by decide, rfl, rfl⟩

/-- The three settings of SHIFT_OVER, the last at the largest amount that completes. -/
theorem witness_ArithmeticFillRoundsDown :
    let c := fun r : ShiftOver => { config with shrFill := .arithmetic, shiftOver := r }
    ((c .zero).shrFill = .arithmetic ∧ (c .zero).shiftOver = .zero) ∧
    ((c .mod16).shrFill = .arithmetic ∧ (c .mod16).shiftOver = .mod16) ∧
    ((c .fault).shrFill = .arithmetic ∧ (c .fault).shiftOver = .fault) ∧
    ((start 0#16 [(2, 0x000F#16)]).readReg 2).toNat < 16 :=
  ⟨⟨rfl, rfl⟩, ⟨rfl, rfl⟩, ⟨rfl, rfl⟩, by decide⟩

theorem witness_LoadReadsTheWord :
    (effectiveAddress (start 0#16 [(1, 0xFFF0#16)]) 1 0xE#4).toNat % 2 = 0 := by decide

theorem witness_StoreWritesTheWord :
    (effectiveAddress (start 0#16 [(1, 0xFFF0#16)]) 1 0xE#4).toNat % 2 = 0 ∧
      (0x0000#16 : Word) ≠ effectiveAddress (start 0#16 [(1, 0xFFF0#16)]) 1 0xE#4 ∧
      (0x0000#16 : Word) ≠ effectiveAddress (start 0#16 [(1, 0xFFF0#16)]) 1 0xE#4 + 1#16 := by
  decide

theorem witness_OddDataAddressFaults :
    (effectiveAddress (start 0#16 [(1, 0xFFF0#16)]) 1 0xF#4).toNat % 2 = 1 := by decide

theorem witness_StoredWordIsLoadedBack :
    ∃ s t : State, exec (.store 3 1 0x4#4) s = .next t ∧
      effectiveAddress t 2 0x0#4 = effectiveAddress s 1 0x4#4 :=
  ⟨start 0#16 [(1, 0x0100#16), (2, 0x0104#16), (3, 0xBEEF#16)], _, rfl, by decide⟩

/-- STORE R3, R1, 0x0 at 0x0010 over the word at 0x0012, which becomes NOT R3, R1. -/
theorem witness_StoredInstructionRunsNext :
    ∃ s : State, s.running = true ∧ s.pc.toNat % 2 = 0 ∧
      decode s.fetch = .ok (.store 3 1 0x0#4) ∧ effectiveAddress s 1 0x0#4 = s.pc + 2#16 ∧
      decode (s.readReg 3) = .ok (.not 3 1) :=
  ⟨ready 0xB310 [(1, 0x0012#16), (3, 0x7310#16)], by decide, by decide, rfl, by decide, rfl⟩

/-- The last slot of a window of three, and the first beyond it. -/
theorem witness_SmcWindowParameter :
    let c := { config with smcWindow := 3 }
    let ea := fun a : Word => effectiveAddress (start 0x0010#16 [(1, a)]) 1 0x0#4
    (ea 0x0016#16).toNat % 2 = 0 ∧ (ea 0x0018#16).toNat % 2 = 0 ∧
    (∃ j, 1 ≤ j ∧ j ≤ c.smcWindow ∧ ea 0x0016#16 = 0x0010#16 + BitVec.ofNat 16 (2 * j)) ∧
    ¬(∃ j, 1 ≤ j ∧ j ≤ c.smcWindow ∧ ea 0x0018#16 = 0x0010#16 + BitVec.ofNat 16 (2 * j)) := by
  refine ⟨by decide, by decide, ⟨3, by decide, by decide, by decide⟩, ?_⟩
  rintro ⟨j, h1, h2, h3⟩
  have : j ≤ 3 := h2
  interval_cases j <;> exact absurd h3 (by decide)

theorem witness_HaltStopsTheMachine : State.reset.fault = none := by decide

/-- Both words: BEQ R0 with offset 0, and a JMP to its own address. -/
theorem witness_SelfBranchesHang :
    (∃ s : State, s.running = true ∧ s.pc.toNat % 2 = 0 ∧ s.fetch = 0xE000#16) ∧
    (∃ s : State, s.running = true ∧ s.pc.toNat % 2 = 0 ∧ s.pc.toNat ≤ 0x0FFF ∧
      s.fetch = 0xD000#16 + s.pc) :=
  ⟨⟨ready 0xE000 [], by decide⟩,
    ⟨(start 0x0FFE#16 []).withFetchWord 16 0xDFFE, by decide⟩⟩

/-- A state that has the invariant, is not the reset state, and steps. -/
theorem witness_EveryStepKeepsTheInvariant :
    ∃ s t : State, s.Inv ∧ s ≠ State.reset ∧ step s = .next t :=
  ⟨ready 0xB31E [(1, 0xFFF0#16), (3, 0x1234#16)], _, ⟨by decide, by decide, by decide⟩, by decide,
    rfl⟩

theorem witness_LaunchSetsWhatResetSays : 0 < 15 ∧ 14 < 15 := by decide

/-- An image that wraps past the top of memory. -/
theorem witness_LaunchedProgramIsInMemory :
    ∃ (c : Config) (l : Launch) (ws : List Word), l.image = imageOf c.resetPc ws ∧
      ws.length ≤ 32768 ∧ 1 < ws.length :=
  ⟨{ config with resetPc := 0xFFFE#16 },
    { Launch.bare with image := imageOf 0xFFFE#16 [0xC105#16, 0xFFFF#16] },
    [0xC105#16, 0xFFFF#16], rfl, by decide, by decide⟩

/-- One instruction for each premise inside the conclusion. -/
theorem witness_EachInstructionWritesOnlyItsOwn :
    let s := start 0x0010#16 [(1, 0xFFFF#16)]
    (∃ t, exec (.store 1 0 0x0#4) s = .next t ∧ t.mem ≠ s.mem) ∧
    (∃ t, exec (.add 3 1 1) s = .next t ∧ t.sr ≠ s.sr ∧ t.readReg 3 ≠ s.readReg 3) ∧
    (∃ t, exec .halt s = .next t ∧ t.halted ≠ s.halted) :=
  ⟨⟨_, rfl, by decide⟩, ⟨_, rfl, by decide, by decide⟩, ⟨_, rfl, by decide⟩⟩

/-- Two FLAGS functions that differ, and two states that differ in sr. -/
theorem witness_StatusRegisterNeverInfluencesARun :
    ∃ (c d : Config) (s t : State), SameButFlags c d ∧ SameButSr s t ∧
      c.flags .add 0#16 0#16 0#16 0#16 ≠ d.flags .add 0#16 0#16 0#16 0#16 ∧ s.sr ≠ t.sr :=
  ⟨config, { config with flags := fun _ _ _ _ _ => 0xF#4 }, State.reset, State.reset.setFlags 0x5#4,
    rfl, rfl, by decide, by decide⟩

theorem witness_DecodeOfEncodeIsTheInstruction :
    (Instr.not 15 14).wellFormed .refuse = true ∧ decoded .refuse (encode (.not 15 14)) =
      some (.not 15 14) := by decide

theorem witness_AssembledStatementDecodesBack :
    wordOf .bne [("loop".toList, 4)] 8 ("BNE".toList, [.reg 3, .label "loop".toList]) =
      .ok 0xF3FC#16 := by rfl

/-- The nearest and the farthest labels that are accepted, and one beyond each end. -/
theorem witness_BranchToALabelReachesIt :
    branchField [] 128 0 = .ok 0x80#8 ∧ branchField [] 0 126 = .ok 0x7E#8 ∧
    branchField [] 130 0 = .error (.branchReach []) ∧
    branchField [] 0 128 = .error (.branchReach []) := ⟨rfl, rfl, rfl, rfl⟩

/-- Each range at both ends, and one number beyond each. -/
theorem witness_NumbersAreRefusedNotTruncated :
    (-128 ≤ (-128 : Int) ∧ (-128 : Int) ≤ 255) ∧ ¬(-128 ≤ (256 : Int) ∧ (256 : Int) ≤ 255) ∧
    (0 ≤ (15 : Int) ∧ (15 : Int) ≤ 15) ∧ ¬(0 ≤ (16 : Int) ∧ (16 : Int) ≤ 15) ∧
    (0 ≤ (4095 : Int) ∧ (4095 : Int) ≤ 0xFFF) ∧ ¬(0 ≤ (-1 : Int) ∧ (-1 : Int) ≤ 0xFFF) := by
  decide

theorem witness_AssembledTextHasOneWordPerInstruction :
    ∃ ws, assemble config "loop: NOP\n\nJMP loop\nHALT".toList = .ok ws ∧ 2 < ws.length :=
  ⟨[0x0000#16, 0xD000#16, 0xFFFF#16], by rfl, by decide⟩

end Sys2Proof.Tests
end

section
/-!
PROOFS. The memory primitives (20_memory.md R25, R26).
-/

namespace Sys2Proof.Machine

/-- An even address is at most 0xFFFE, so the address of its high byte does not wrap (R25). -/
theorem toNat_add_one_of_even {a : Word} (h : a.toNat % 2 = 0) : (a + 1#16).toNat = a.toNat + 1 := by
  have hlt := a.isLt
  rw [BitVec.toNat_add, show (1#16).toNat = 1 from rfl]
  omega

/-- A stored word's low byte is at its address (R24). -/
@[simp] theorem read_writeWord_low (m : Memory) (a v : Word) :
    (m.writeWord a v).read a = v.extractLsb' 0 8 := by
  rw [read_writeWord, if_pos rfl]

/-- A stored word's high byte is at the next address, wrapping or not (R24). -/
@[simp] theorem read_writeWord_high (m : Memory) (a v : Word) :
    (m.writeWord a v).read (a + 1#16) = v.extractLsb' 8 8 := by
  rw [read_writeWord, if_neg (add_one_ne a), if_pos rfl]

theorem toNat_lowByte (v : Word) : (v.extractLsb' 0 8).toNat = v.toNat % 256 := by
  rw [BitVec.extractLsb'_toNat, Nat.shiftRight_zero]

theorem toNat_highByte (v : Word) : (v.extractLsb' 8 8).toNat = v.toNat / 256 := by
  have hv := v.isLt
  rw [BitVec.extractLsb'_toNat, Nat.shiftRight_eq_div_pow]
  omega

theorem sameRegs_storeWord (s : State) (a v : Word) : SameRegs s (s.storeWord a v) :=
  readReg_storeWord s a v

theorem sameSpecials_storeWord (s : State) (a v : Word) : SameSpecials s (s.storeWord a v) :=
  ⟨storeWord_sp s a v, storeWord_lr s a v, storeWord_halted s a v, storeWord_fault s a v⟩

/-- Settles O1: a word is put together from its two bytes, and an even address has a successor. -/
theorem memReadIsLittleEndian : Obligations.MemReadIsLittleEndian := by
  intro s a heven
  exact ⟨toNat_wordOfBytes (s.mem.read a) (s.mem.read (a + 1#16)), toNat_add_one_of_even heven⟩

/-- Settles O2, from the reads after a stored word and the frame of `storeWord`. It holds of an odd
address too, since the two bytes of a word never share an address. -/
theorem memWriteChangesTwoBytes : Obligations.MemWriteChangesTwoBytes := by
  intro s a v _
  refine ⟨?low, ?high, ?others, sameRegs_storeWord s a v, sameSpecials_storeWord s a v,
    storeWord_pc s a v, storeWord_sr s a v⟩
  case low => rw [storeWord_mem, read_writeWord_low, toNat_lowByte]
  case high => rw [storeWord_mem, read_writeWord_high, toNat_highByte]
  case others =>
    intro k hlow hhigh
    rw [storeWord_mem, read_writeWord_other s.mem v hlow hhigh]

end Sys2Proof.Machine
end

section
/-!
PROOFS. The encoding (30_encoding.md R38, R39).
-/

namespace Sys2Proof.Machine

/-! ### A word by the fields of each format (R40 to R44) -/

section
variable {w : Word} {op : Nat}

/-- R-Type, and M-Type as well: off4 is the digit of rt. -/
theorem digitsAre_rTypeFields (hop : (opField w).val = op) :
    digitsAre w op (rdField w) (rsField w) (rtField w) := by
  rw [opField_val] at hop
  rw [digitsAre, rdField_val, rsField_val, rtField_val]
  omega

/-- I-Type and B-Type. -/
theorem digitsAre_iTypeFields (hop : (opField w).val = op) :
    digitsAre w op (rdField w) ((low8Field w).toNat / 16) ((low8Field w).toNat % 16) := by
  rw [opField_val] at hop
  rw [digitsAre, rdField_val, low8Field_toNat]
  omega

/-- J-Type. -/
theorem toNat_eq_of_jTypeFields (hop : (opField w).val = op) :
    w.toNat = op * 4096 + (addr12Field w).toNat := by
  rw [opField_val] at hop
  rw [addr12Field_toNat]
  omega

end

/-- Settles O4: HALT is one word; any other is read by its opcode digit, and the fields of that
digit's format make up the word. -/
theorem decodedOperandsAreTheWordsFields : Obligations.DecodedOperandsAreTheWordsFields := by
  intro w i h
  by_cases hw : w = 0xFFFF#16
  · subst hw
    cases h
    rfl
  · rw [decode, decodeUnder_primary _ hw] at h
    generalize hop : (opField w).val = op at h
    have hlt : op < 16 := hop ▸ (opField w).isLt
    match op, hop, h, hlt with
    | 0, hop, rfl, _ => exact opField_val w ▸ hop
    | 1, hop, rfl, _ | 3, hop, rfl, _ | 4, hop, rfl, _ | 5, hop, rfl, _ | 6, hop, rfl, _
    | 8, hop, rfl, _ | 9, hop, rfl, _ => exact digitsAre_rTypeFields hop
    | 7, hop, rfl, _ => exact ⟨rtField w, (rtField w).isLt, digitsAre_rTypeFields hop⟩
    | 10, hop, rfl, _ | 11, hop, rfl, _ => exact digitsAre_rTypeFields hop
    | 2, hop, rfl, _ | 12, hop, rfl, _ | 14, hop, rfl, _ | 15, hop, rfl, _ =>
      exact digitsAre_iTypeFields hop
    | 13, hop, rfl, _ => exact toNat_eq_of_jTypeFields hop
    | _ + 16, _, _, hlt => omega

/-! ### One word (R38) -/

theorem decodeBytes_of_length_lt_two {bs : List Byte} (h : bs.length < 2) :
    decodeBytes bs = .error .truncated := by
  match bs, h with
  | [], _ => rfl
  | [_], _ => rfl

theorem decodeBytes_cons_cons (lo hi : Byte) (rest : List Byte) :
    decodeBytes (lo :: hi :: rest) = (decode (hi ++ lo)).map (fun i => (i, rest)) := rfl

theorem decodeBytes_eq_ok_iff (lo hi : Byte) (rest rest' : List Byte) (i : Instr) :
    decodeBytes (lo :: hi :: rest) = .ok (i, rest') ↔ decode (hi ++ lo) = .ok i ∧ rest' = rest := by
  rw [decodeBytes_cons_cons]
  cases decode (hi ++ lo) with
  | error e => simp [Except.map]
  | ok j => simp [Except.map, eq_comm]

/-! ### The next instruction (R38) -/

/-- The answer, when it is a next state, goes on at the word after the one at `s.pc`. -/
def Advances (s : State) (a : Answer) : Prop := ∀ t, a = .next t → t.pc = s.pc + 2#16

section
variable {s : State}

theorem advances_next {t : State} (h : t.pc = s.pc + 2#16) : Advances s (.next t) := by
  rintro _ ⟨⟩
  exact h

theorem advances_fault (f : Fault) : Advances s (.fault f) := nofun

theorem advances_refused (r : Refusal) : Advances s (.refused r) := nofun

theorem shiftUnder_advances (c : Config) (f : Word → Nat → Word) (rd rs rt : Reg) :
    Advances s (shiftUnder c f rd rs rt s) := by
  obtain ⟨n, -, h⟩ | ⟨e, -, h⟩ := shiftUnder_cases c f rd rs rt s
  · rw [h]
    exact advances_next (writeResult_pc ..)
  · rw [h]
    exact advances_fault e

theorem loadUnder_advances (c : Config) (rd rs : Reg) (off4 : BitVec 4) :
    Advances s (loadUnder c rd rs off4 s) := by
  rw [loadUnder_eq]
  split
  · exact advances_fault _
  · exact advances_next (by rw [nextPc_pc, writeReg_pc])

theorem storeUnder_advances (c : Config) (rd rs : Reg) (off4 : BitVec 4) :
    Advances s (storeUnder c rd rs off4 s) := by
  rw [storeUnder_eq]
  split
  · exact advances_fault _
  · split
    · exact advances_fault _
    · exact advances_next (by rw [nextPc_pc, storeWord_pc])

theorem branch_advances {taken : Bool} (h : taken = false) (off8 : BitVec 8) :
    Advances s (branch taken off8 s) := by
  rw [h]
  exact advances_next (nextPc_pc s)

/-- Every instruction that transfers no control and does not halt goes on at the next word. -/
theorem exec_advances {i : Instr} (h : leavesSequence s i = false) : Advances s (exec i s) := by
  cases i with
  | nop => exact advances_next (nextPc_pc s)
  | add | addi | sub | and | or | xor | not => exact advances_next (writeResult_pc ..)
  | shl rd rs rt => exact shiftUnder_advances config shiftLeft rd rs rt
  | shr rd rs rt => exact shiftUnder_advances config (shiftRight config.shrFill) rd rs rt
  | load rd rs off4 => exact loadUnder_advances config rd rs off4
  | store rd rs off4 => exact storeUnder_advances config rd rs off4
  | loadi rd imm8 => exact advances_next (by rw [nextPc_pc, writeReg_pc])
  | beq rc off8 => exact branch_advances h off8
  | bne rc off8 => exact branch_advances h off8
  | jmp | halt => cases h
  | call | ret | push | pop => exact advances_refused _

end

/-- A running state has neither halted nor faulted. -/
theorem running_iff (s : State) : s.running = true ↔ s.fault = none ∧ s.halted = false := by
  simp [State.running, and_comm]

/-- The step of a running machine at an even pc is the meaning of the decoded instruction. -/
theorem step_eq_exec {s : State} {i : Instr} (hrun : s.running = true) (heven : s.pc.toNat % 2 = 0)
    (hi : decode s.fetch = .ok i) : step s = exec i s := by
  obtain ⟨hfault, hhalted⟩ := (running_iff s).mp hrun
  exact cycle_decoded hfault hhalted ((isOdd_eq_false_iff s.pc).mpr heven) hi

/-- Settles O5, from what `decodeBytes` does on each shape of list, and from what every instruction
in sequence does to pc. -/
theorem everyInstructionIsOneWord : Obligations.EveryInstructionIsOneWord := by
  refine ⟨fun _ => decodeBytes_of_length_lt_two, decodeBytes_eq_ok_iff, ?_⟩
  intro s t i hrun heven hi hseq hstep
  rw [step_eq_exec hrun heven hi] at hstep
  exact exec_advances hseq t hstep

end Sys2Proof.Machine
end

section
/-!
PROOFS. Arithmetic (40_arithmetic.md R62 to R66).
-/

namespace Sys2Proof.Machine

/-! ### What a written result changes and keeps -/

theorem sameMemory_of_mem_eq {s t : State} (h : t.mem = s.mem) : SameMemory s t := by
  intro a
  rw [h]

section
variable (s : State) (c : Config) (k : FlagKind) (rd : Reg) (a b r : Word)

/-- The destination holds the result, unless it is R0 (R9), and no other register changes. -/
theorem wroteReg_writeResult : WroteReg rd r s (s.writeResult c k rd a b r) := by
  constructor
  · rw [readReg_writeResult, readReg_writeReg_same]
  · intro q hq
    rw [readReg_writeResult, readReg_writeReg_other s r hq]

end

/-! ### The meanings at the default parameters -/

section
variable (s : State) (rd rs rt : Reg) (imm8 : BitVec 8)

theorem exec_nop : exec .nop s = .next s.nextPc := rfl

theorem exec_add : exec (.add rd rs rt) s =
    .next (s.writeResult config .add rd (s.readReg rs) (s.readReg rt)
      (s.readReg rs + s.readReg rt)) := rfl

theorem exec_addi : exec (.addi rd imm8) s =
    .next (s.writeResult config .add rd (s.readReg rd) (immOperand imm8)
      (s.readReg rd + immOperand imm8)) := rfl

theorem exec_sub : exec (.sub rd rs rt) s =
    .next (s.writeResult config .sub rd (s.readReg rs) (s.readReg rt)
      (s.readReg rs - s.readReg rt)) := rfl

end

/-! ### The results as integers -/

/-- The operand of an immediate is its signed value modulo 2^16 (C5). -/
theorem toNat_immOperand (imm8 : BitVec 8) :
    ((immOperand imm8).toNat : Int) = imm8.toInt % 65536 := by
  rw [immOperand, BitVec.signExtend, BitVec.toNat_ofInt]
  omega

theorem toNat_add_immOperand (a : Word) (imm8 : BitVec 8) :
    ((a + immOperand imm8).toNat : Int) = (a.toNat + imm8.toInt) % 65536 := by
  have himm := toNat_immOperand imm8
  rw [BitVec.toNat_add]
  omega

/-- The difference modulo 2^16, where the exact one may be negative. -/
theorem toNat_sub_word (a b : Word) :
    ((a - b).toNat : Int) = (a.toNat - b.toNat : Int) % 65536 := by
  rw [BitVec.toNat_sub]
  omega

/-- Settles O19: each of the three answers the state that `writeResult` leaves, whose value is the
sum or the difference modulo 2^16; NOP writes pc alone. -/
theorem arithmeticWrapsModulo : Obligations.ArithmeticWrapsModulo := by
  intro s rd rs rt imm8
  refine ⟨?nop, ?add, ?addi, ?sub⟩
  case nop =>
    exact ⟨_, exec_nop s, readReg_nextPc s, sameMemory_of_mem_eq (nextPc_mem s)⟩
  case add =>
    exact ⟨_, _, exec_add s rd rs rt, wroteReg_writeResult ..,
      sameMemory_of_mem_eq (writeResult_mem ..), BitVec.toNat_add _ _⟩
  case addi =>
    exact ⟨_, _, exec_addi s rd imm8, wroteReg_writeResult ..,
      sameMemory_of_mem_eq (writeResult_mem ..), toNat_add_immOperand _ _⟩
  case sub =>
    exact ⟨_, _, exec_sub s rd rs rt, wroteReg_writeResult ..,
      sameMemory_of_mem_eq (writeResult_mem ..), toNat_sub_word _ _⟩

end Sys2Proof.Machine
end

section
/-!
PROOFS. The extended group (45_extended.md R83 to R87).
-/

namespace Sys2Proof.Machine

/-! ### Only well-formed instructions are decoded (30_encoding.md R47, R49) -/

section
variable {x : ExtSpace} {w : Word} {i : Instr}

/-- The fields of BNE RF, 0xFF make up the word of HALT (R49). -/
theorem eq_haltWord_of_fields (hop : (opField w).val = 15) (hrc : rdField w = 15)
    (hoff : low8Field w = 0xFF#8) : w = 0xFFFF#16 := by
  have hrc' : (rdField w).val = 15 := congrArg Fin.val hrc
  have hoff' : (low8Field w).toNat = 255 := congrArg BitVec.toNat hoff
  rw [opField_val] at hop
  rw [rdField_val] at hrc'
  rw [low8Field_toNat] at hoff'
  apply BitVec.eq_of_toNat_eq
  rw [show (0xFFFF#16).toNat = 65535 from rfl]
  omega

/-- A BNE is well formed when it is neither HALT's word nor one that EXT_SPACE refuses. -/
theorem wellFormed_bne {rc : Reg} {off8 : BitVec 8} (hhalt : ¬(rc = 15 ∧ off8 = 0xFF#8))
    (hspace : ¬(x = .refuse ∧ rc.val ≤ 3)) : (Instr.bne rc off8).wellFormed x = true := by
  simp only [Instr.wellFormed, Bool.and_eq_true, Bool.not_eq_true', Bool.and_eq_false_imp,
    beq_iff_eq, beq_eq_false_iff_ne, decide_eq_false_iff_not]
  exact ⟨fun hrc hoff => hhalt ⟨hrc, hoff⟩, fun hx hle => hspace ⟨hx, hle⟩⟩

/-- HALT is well formed, and so is every instruction of an opcode digit below 0xF. The digit 0xF
gives a BNE, once HALT's word and the words that EXT_SPACE refuses are out. -/
theorem wellFormed_of_decodeUnder (h : decodeUnder x w = .ok i) : i.wellFormed x = true := by
  by_cases hw : w = 0xFFFF#16
  · subst hw
    cases h
    rfl
  · rw [decodeUnder_primary x hw] at h
    generalize hop : (opField w).val = op at h
    have hlt : op < 16 := hop ▸ (opField w).isLt
    match op, hop, h, hlt with
    | 0, _, rfl, _ | 1, _, rfl, _ | 2, _, rfl, _ | 3, _, rfl, _ | 4, _, rfl, _ | 5, _, rfl, _
    | 6, _, rfl, _ | 7, _, rfl, _ | 8, _, rfl, _ | 9, _, rfl, _ | 10, _, rfl, _ | 11, _, rfl, _
    | 12, _, rfl, _ | 13, _, rfl, _ | 14, _, rfl, _ => rfl
    | 15, hop, h, _ =>
      rw [decodePrimary_contested] at h
      split at h
      next => cases h
      next hspace =>
        cases h
        exact wellFormed_bne (fun ⟨hrc, hoff⟩ => hw (eq_haltWord_of_fields hop hrc hoff)) hspace
    | _ + 16, _, _, hlt => omega

/-- No word decodes to an instruction that is not well formed. -/
theorem decodeUnder_ne_ok (hi : i.wellFormed x = false) : decodeUnder x w ≠ .ok i := by
  intro h
  rw [wellFormed_of_decodeUnder h] at hi
  cases hi

end

/-- Settles O9: the meaning of each of the four is its refusal, and none of the four is well formed,
under either setting of EXT_SPACE. -/
theorem extendedOperationsAreRefused : Obligations.ExtendedOperationsAreRefused := by
  constructor
  · intro xx s
    exact ⟨rfl, rfl, rfl, rfl⟩
  · intro x w xx
    exact ⟨decodeUnder_ne_ok rfl, decodeUnder_ne_ok rfl, decodeUnder_ne_ok rfl,
      decodeUnder_ne_ok rfl⟩

end Sys2Proof.Machine
end

section
/-!
PROOFS. The decoder against the encoder and against the opcode map (30_encoding.md R46 to R50).
-/

namespace Sys2Proof.Machine

/-! ### Decode of encode (R50) -/

section
variable (x : ExtSpace)

/-- A word whose opcode digit is below 0xF is decoded by that digit. -/
theorem decodeUnder_of_opField {w : Word} {op : Nat} (hop : (opField w).val = op) (h : op ≠ 15) :
    decodeUnder x w = decodePrimary x op w := by
  subst hop
  exact decodeUnder_primary x (ne_halt_of_op h)

theorem decodeUnder_packR {op : BitVec 4} (h : op.toNat ≠ 15) (rd rs : Reg) (low : BitVec 4) :
    decodeUnder x (packR op rd rs low) = decodePrimary x op.toNat (packR op rd rs low) :=
  decodeUnder_of_opField x (opField_packR op low rd rs) h

theorem decodeUnder_packI {op : BitVec 4} (h : op.toNat ≠ 15) (rd : Reg) (low : BitVec 8) :
    decodeUnder x (packI op rd low) = decodePrimary x op.toNat (packI op rd low) :=
  decodeUnder_of_opField x (opField_packI op rd low) h

theorem decodeUnder_packJ {op : BitVec 4} (h : op.toNat ≠ 15) (low : BitVec 12) :
    decodeUnder x (packJ op low) = decodePrimary x op.toNat (packJ op low) :=
  decodeUnder_of_opField x (opField_packJ op low) h

theorem wellFormed_bne_iff (rc : Reg) (off8 : BitVec 8) :
    (Instr.bne rc off8).wellFormed x = true ↔
      ¬(rc = 15 ∧ off8 = 0xFF#8) ∧ ¬(x = .refuse ∧ rc.val ≤ 3) := by
  simp [Instr.wellFormed, imp_iff_not_or]

/-- The word of a BNE is HALT's only for BNE RF, 0xFF (R49). -/
theorem encode_bne_ne_halt {rc : Reg} {off8 : BitVec 8} (h : ¬(rc = 15 ∧ off8 = 0xFF#8)) :
    encode (.bne rc off8) ≠ 0xFFFF#16 := by
  intro hw
  have hrc : rdField (encode (.bne rc off8)) = rc := rdField_packI ..
  have hoff : low8Field (encode (.bne rc off8)) = off8 := low8Field_packI ..
  rw [hw] at hrc hoff
  exact h ⟨hrc.symm, hoff.symm⟩

theorem decodeUnder_encode_bne {rc : Reg} {off8 : BitVec 8}
    (h : (Instr.bne rc off8).wellFormed x = true) :
    decodeUnder x (encode (.bne rc off8)) = .ok (.bne rc off8) := by
  obtain ⟨hhalt, hspace⟩ := (wellFormed_bne_iff x rc off8).mp h
  have hop : (opField (encode (.bne rc off8))).val = 15 := opField_packI 0xF#4 rc off8
  have hrc : rdField (encode (.bne rc off8)) = rc := rdField_packI ..
  have hoff : low8Field (encode (.bne rc off8)) = off8 := low8Field_packI ..
  rw [decodeUnder_primary x (encode_bne_ne_halt hhalt), hop, decodePrimary_contested, hrc, hoff,
    if_neg hspace]

/-- No bit of a well-formed instruction is lost: a digit below 0xF gives the fields back that the
encoder packed, and BNE and HALT share the digit 0xF. -/
theorem decodeUnder_encode {i : Instr} (h : i.wellFormed x = true) :
    decodeUnder x (encode i) = .ok i := by
  cases i with
  | nop => rfl
  | add | sub | and | or | xor | not | shl | shr | load | store =>
    rw [encode, decodeUnder_packR x (by decide)]
    simp [decodePrimary]
  | addi | loadi | beq =>
    rw [encode, decodeUnder_packI x (by decide)]
    simp [decodePrimary]
  | jmp =>
    rw [encode, decodeUnder_packJ x (by decide)]
    simp [decodePrimary]
  | bne => exact decodeUnder_encode_bne x h
  | halt => rfl
  | call | ret | push | pop => cases h

end

/-- Settles O6: only well-formed instructions are decoded at all, and each of them is decoded from
its own word. -/
theorem decodeOfEncodeIsTheInstruction : Obligations.DecodeOfEncodeIsTheInstruction :=
  fun x _ => ⟨wellFormed_of_decodeUnder, decodeUnder_encode x⟩

/-! ### The opcode map (R46, R47) -/

/-- Every row but HALT's is selected by the opcode digit alone. -/
theorem mask_of_mem_opcodeRows :
    ∀ r ∈ opcodeRows, (r.mask = 0xFFFF#16 ∧ r.value = 0xFFFF#16) ∨ r.mask = 0xF000#16 := by
  decide

/-- Whether a word other than HALT's, with the opcode digit `op`, selects the row. -/
def rowOfDigit (op : Fin 16) (r : OpcodeRow) : Bool :=
  r.mask == 0xF000#16 && BitVec.ofFin op ++ 0#12 == r.value

theorem selects_eq_rowOfDigit {w : Word} (hw : w ≠ 0xFFFF#16) {r : OpcodeRow}
    (hr : r ∈ opcodeRows) : r.selects w = rowOfDigit (opField w) r := by
  have hdigit : w &&& 0xF000#16 = BitVec.ofFin (opField w) ++ 0#12 :=
    Laws.OpcodeRow.primary_of_op rfl
  have hall : w &&& 0xFFFF#16 = w := BitVec.and_allOnes
  rcases mask_of_mem_opcodeRows r hr with ⟨hmask, hvalue⟩ | hmask
  · simp [OpcodeRow.selects, rowOfDigit, hmask, hvalue, hall, hw]
  · simp [OpcodeRow.selects, rowOfDigit, hmask, hdigit]

/-- The rows stand in the order of their opcode digits, after HALT's. -/
theorem find?_rowOfDigit :
    ∀ op : Fin 16, opcodeRows.find? (rowOfDigit op) = opcodeRows[op.val + 1]? := by
  decide

theorem rowOf_primary {w : Word} (hw : w ≠ 0xFFFF#16) :
    rowOf w = opcodeRows[(opField w).val + 1]? := by
  rw [← find?_rowOfDigit]
  exact List.find?_congr fun r hr => selects_eq_rowOfDigit hw hr

/-- The row of an opcode digit bears the mnemonic of what the digit decodes to. -/
theorem name_of_decodePrimary {x : ExtSpace} {op : Nat} {w : Word} {i : Instr} (hlt : op < 16)
    (h : decodePrimary x op w = .ok i) :
    ∃ r, opcodeRows[op + 1]? = some r ∧ r.name = i.mnemonic := by
  match op, h, hlt with
  | 0, rfl, _ | 1, rfl, _ | 2, rfl, _ | 3, rfl, _ | 4, rfl, _ | 5, rfl, _ | 6, rfl, _ | 7, rfl, _
  | 8, rfl, _ | 9, rfl, _ | 10, rfl, _ | 11, rfl, _ | 12, rfl, _ | 13, rfl, _ | 14, rfl, _ =>
    exact ⟨_, rfl, rfl⟩
  | 15, h, _ =>
    rw [decodePrimary_contested] at h
    split at h <;> cases h
    exact ⟨_, rfl, rfl⟩
  | _ + 16, _, hlt => omega

/-- Settles O7: HALT's word selects the first row, and any other word the row of its digit. -/
theorem decodeFollowsTheOpcodeMap : Obligations.DecodeFollowsTheOpcodeMap := by
  intro w i h
  by_cases hw : w = 0xFFFF#16
  · subst hw
    cases h
    exact ⟨_, rfl, rfl⟩
  · rw [decode, decodeUnder_primary _ hw] at h
    rw [rowOf_primary hw]
    exact name_of_decodePrimary (opField w).isLt h

/-! ### The contested words (R47, R49) -/

section
variable {w : Word}

/-- The contested words, 0xF000 to 0xF3FF, by their fields. -/
theorem contested_iff (w : Word) :
    0xF000 ≤ w.toNat ∧ w.toNat ≤ 0xF3FF ↔ (opField w).val = 15 ∧ (rdField w).val ≤ 3 := by
  have := w.isLt
  rw [opField_val, rdField_val]
  omega

theorem decodeUnder_refuse_contested (h : 0xF000 ≤ w.toNat ∧ w.toNat ≤ 0xF3FF) :
    decodeUnder .refuse w = .error (.refused w) := by
  obtain ⟨hop, hrd⟩ := (contested_iff w).mp h
  have hw : w ≠ 0xFFFF#16 := by
    rintro rfl
    exact absurd h (by decide)
  rw [decodeUnder_primary _ hw, hop, decodePrimary_contested, if_pos ⟨rfl, hrd⟩]

/-- The decoder fails on the contested words under `refuse`, and on no other. -/
theorem decodeUnder_error_iff (x : ExtSpace) (w : Word) :
    (∃ e, decodeUnder x w = .error e) ↔
      x = .refuse ∧ 0xF000 ≤ w.toNat ∧ w.toNat ≤ 0xF3FF := by
  constructor
  · rintro ⟨e, h⟩
    obtain ⟨-, hx, -, hrd, hop⟩ := decodeUnder_error h
    exact ⟨hx, (contested_iff w).mpr ⟨hop, hrd⟩⟩
  · rintro ⟨rfl, h⟩
    exact ⟨_, decodeUnder_refuse_contested h⟩

/-- EXT_SPACE matters for BNE only. -/
theorem decodePrimary_refuse_of_digit {op : Nat} (h : op < 15) (w : Word) :
    decodePrimary .refuse op w = decodePrimary .bne op w := by
  interval_cases op <;> rfl

theorem decodeUnder_refuse_uncontested (h : ¬(0xF000 ≤ w.toNat ∧ w.toNat ≤ 0xF3FF)) :
    decodeUnder .refuse w = decodeUnder .bne w := by
  by_cases hw : w = 0xFFFF#16
  · rw [hw, decodeUnder_halt, decodeUnder_halt]
  · rw [decodeUnder_primary _ hw, decodeUnder_primary _ hw]
    by_cases hop : (opField w).val = 15
    · have hrd : ¬(rdField w).val ≤ 3 := fun hrd => h ((contested_iff w).mpr ⟨hop, hrd⟩)
      simp [hop, decodePrimary_contested, hrd]
    · have := (opField w).isLt
      exact decodePrimary_refuse_of_digit (by omega) w

theorem decodeUnder_bne_total (w : Word) : ∃ i, decodeUnder .bne w = .ok i := by
  cases h : decodeUnder .bne w with
  | ok i => exact ⟨i, rfl⟩
  | error e => exact absurd (decodeUnder_error h).2.1 (by decide)

end

/-- Settles O8, from where the decoder fails and from the digits on which EXT_SPACE does not
matter. -/
theorem refuseSettingRefusesTheContestedWords :
    Obligations.RefuseSettingRefusesTheContestedWords := by
  intro w
  refine ⟨⟨fun h => ?contested, decodeUnder_refuse_contested⟩, decodeUnder_refuse_uncontested,
    decodeUnder_bne_total w⟩
  case contested => exact ((decodeUnder_error_iff .refuse w).mp ⟨_, h⟩).2

/-! ### The source's words -/

/-- Settles O10: each word is the encoding of the instruction the source names. -/
theorem sourceWordsDecode : Obligations.SourceWordsDecode :=
  ⟨decodeUnder_encode _ (i := .add 3 1 2) rfl, decodeUnder_encode _ (i := .loadi 5 0x42#8) rfl,
    decodeUnder_encode _ (i := .load 3 2 0x4#4) rfl, decodeUnder_encode _ (i := .addi 3 0x42#8) rfl,
    decodeUnder_halt _⟩

end Sys2Proof.Machine
end

section
/-!
PROOFS. Who writes what (10_state.md R17), the invariant, and what a launch sets (10_state.md R20;
70_reset_and_hazards.md R105).
-/

namespace Sys2Proof.Machine

/-! ### What a completed instruction may have changed (R17) -/

/-- The state `t` that `i` leaves differs from `s` in pc, and elsewhere only in what `i` writes. -/
structure Effect (i : Instr) (s t : State) : Prop where
  mem : t.mem = s.mem ∨ isStore i = true ∧ ∃ a v, t.mem = s.mem.writeWord a v
  sr : t.sr = s.sr ∨ writesFlags i = true ∧ ∃ f, t.sr = (s.setFlags f).sr
  halted : t.halted = s.halted ∨ i = .halt
  sp : t.sp = s.sp
  lr : t.lr = s.lr
  fault : t.fault = s.fault
  regs : ∀ r, t.readReg r = s.readReg r ∨ destination i = some r ∧ r ≠ 0

section
variable {i : Instr} (s : State) {rd : Reg}

theorem effect_setPc (t : Word) : Effect i s (s.setPc t) :=
  ⟨.inl rfl, .inl rfl, .inl rfl, rfl, rfl, rfl, fun r => .inl (readReg_setPc s t r)⟩

/-- A register write changes at most its register, and that one only if it is not R0 (R9). -/
theorem readReg_writeReg_cases (v : Word) (hd : destination i = some rd) (r : Reg) :
    (s.writeReg rd v).readReg r = s.readReg r ∨ destination i = some r ∧ r ≠ 0 := by
  rw [readReg_writeReg]
  split
  next h =>
    obtain ⟨rfl, hr⟩ := h
    exact .inr ⟨hd, hr⟩
  next => exact .inl rfl

theorem effect_writeReg (v : Word) (hd : destination i = some rd) :
    Effect i s (s.writeReg rd v).nextPc where
  mem := .inl (by simp)
  sr := .inl (by simp)
  halted := .inl (by simp)
  sp := by simp
  lr := by simp
  fault := by simp
  regs r := by
    rw [readReg_nextPc]
    exact readReg_writeReg_cases s v hd r

theorem effect_writeResult (c : Config) (k : FlagKind) (a b v : Word)
    (hd : destination i = some rd) (hf : writesFlags i = true) :
    Effect i s (s.writeResult c k rd a b v) where
  mem := .inl (by simp)
  sr := .inr ⟨hf, _, writeResult_sr ..⟩
  halted := .inl (by simp)
  sp := by simp
  lr := by simp
  fault := by simp
  regs r := by
    rw [readReg_writeResult]
    exact readReg_writeReg_cases s v hd r

theorem effect_storeWord (a v : Word) (hi : isStore i = true) :
    Effect i s (s.storeWord a v).nextPc :=
  ⟨.inr ⟨hi, a, v, rfl⟩, .inl rfl, .inl rfl, rfl, rfl, rfl, fun r => .inl (by simp)⟩

theorem effect_halt : Effect .halt s s.halt :=
  ⟨.inl rfl, .inl rfl, .inr rfl, rfl, rfl, rfl, fun r => .inl (readReg_halt s r)⟩

end

section
variable {i : Instr} {c : Config} {s t : State}

theorem shiftUnder_effect {f : Word → Nat → Word} {rd rs rt : Reg}
    (hd : destination i = some rd) (hf : writesFlags i = true)
    (h : shiftUnder c f rd rs rt s = .next t) : Effect i s t := by
  obtain ⟨n, -, heq⟩ | ⟨e, -, heq⟩ := shiftUnder_cases c f rd rs rt s
  · rw [heq] at h
    cases h
    exact effect_writeResult s _ _ _ _ _ hd hf
  · rw [heq] at h
    cases h

theorem loadUnder_effect {rd rs : Reg} {off4 : BitVec 4}
    (h : loadUnder c rd rs off4 s = .next t) : Effect (.load rd rs off4) s t := by
  rw [loadUnder_eq] at h
  split at h <;> cases h
  exact effect_writeReg s _ rfl

theorem storeUnder_effect {rd rs : Reg} {off4 : BitVec 4}
    (h : storeUnder c rd rs off4 s = .next t) : Effect (.store rd rs off4) s t := by
  rw [storeUnder_eq] at h
  split at h
  · cases h
  · split at h <;> cases h
    exact effect_storeWord s _ _ rfl

theorem branch_effect {taken : Bool} {off8 : BitVec 8} (h : branch taken off8 s = .next t) :
    Effect i s t := by
  cases h
  split
  · exact effect_setPc s _
  · exact effect_setPc s _

/-- Every instruction keeps to its row of R17, under any parameters. -/
theorem execUnder_effect (h : execUnder c i s = .next t) : Effect i s t := by
  cases i with
  | nop | jmp =>
    cases h
    exact effect_setPc s _
  | add | addi | sub | and | or | xor | not =>
    cases h
    exact effect_writeResult s _ _ _ _ _ rfl rfl
  | shl | shr => exact shiftUnder_effect rfl rfl h
  | load => exact loadUnder_effect h
  | store => exact storeUnder_effect h
  | loadi =>
    cases h
    exact effect_writeReg s _ rfl
  | beq | bne => exact branch_effect h
  | halt =>
    cases h
    exact effect_halt s
  | call | ret | push | pop => cases h

theorem exec_effect (h : exec i s = .next t) : Effect i s t :=
  execUnder_effect (c := config) (execUnder_config i s ▸ h)

/-- sr[15:4] is written by no instruction (R13, D15). -/
theorem Effect.reserved (h : Effect i s t) : t.sr.extractLsb' 4 12 = s.sr.extractLsb' 4 12 := by
  obtain hsr | ⟨-, f, hsr⟩ := h.sr
  · rw [hsr]
  · rw [hsr, reserved_setFlags]

theorem Effect.wf (h : Effect i s t) (hm : s.mem.wf) : t.mem.wf := by
  obtain hmem | ⟨-, a, v, hmem⟩ := h.mem
  · rwa [hmem]
  · rw [hmem]
    exact wf_writeWord hm a v

end

/-- Settles O42, from the effect of every instruction. -/
theorem eachInstructionWritesOnlyItsOwn : Obligations.EachInstructionWritesOnlyItsOwn := by
  intro i s t h
  have he := exec_effect h
  exact ⟨fun hne => (he.mem.resolve_left hne).1, fun hne => (he.sr.resolve_left hne).1,
    he.reserved, fun hne => he.halted.resolve_left hne, he.sp, he.lr, he.fault,
    fun r hne => (he.regs r).resolve_left hne⟩

/-! ### The invariant -/

section
variable {s t : State}

/-- An instruction keeps the invariant of a state without a fault: it records none itself. -/
theorem Effect.inv {i : Instr} (h : Effect i s t) (hs : s.Inv) (hf : s.fault = none) : t.Inv := by
  obtain ⟨hwf, hsr, -⟩ := hs
  refine ⟨h.wf hwf, h.reserved.trans hsr, ?_⟩
  rintro ⟨-, hfault⟩
  rw [h.fault, hf] at hfault
  cases hfault

theorem inv_of_step_next (hs : s.Inv) (h : step s = .next t) : t.Inv := by
  obtain ⟨-, -, rfl⟩ | ⟨hf, -, -, i, -, hi⟩ := cycle_next h
  · exact hs
  · exact (exec_effect hi).inv hs hf

/-- Recording a fault keeps the invariant of a state that has not halted. -/
theorem inv_recordFault (hs : s.Inv) (hh : s.halted = false) (f : Fault) :
    (s.recordFault f).Inv := by
  obtain ⟨hwf, hsr, -⟩ := hs
  refine ⟨hwf, hsr, ?_⟩
  rintro ⟨hhalted, -⟩
  rw [recordFault_halted, hh] at hhalted
  cases hhalted

/-- A step that raises a fault finds it recorded already, or has not halted. -/
theorem inv_of_step_fault (hs : s.Inv) {f : Fault} (h : step s = .fault f) :
    (s.recordFault f).Inv := by
  obtain hf | ⟨-, hh, -⟩ := cycle_fault h
  · rwa [recordFault_of_eq hf]
  · exact inv_recordFault hs hh f

end

/-- Settles O38, by the three answers a step can give. -/
theorem everyStepKeepsTheInvariant : Obligations.EveryStepKeepsTheInvariant := by
  intro s hs
  refine ⟨fun _ => inv_of_step_next hs, ?_⟩
  unfold advance
  cases h : step s with
  | next t => exact inv_of_step_next hs h
  | fault f => exact inv_of_step_fault hs h
  | refused r => exact hs

/-! ### The launch (R20, R105) -/

/-- The host supplies sr[3:0] only (R20, D15). -/
theorem reserved_setWidth (f : BitVec 4) : (f.setWidth 16).extractLsb' 4 12 = 0 := by
  apply BitVec.eq_of_toNat_eq
  have := f.isLt
  rw [BitVec.extractLsb'_toNat, BitVec.toNat_setWidth, Nat.shiftRight_eq_div_pow,
    show (0 : BitVec 12).toNat = 0 from rfl]
  omega

theorem inv_launch (c : Config) (l : Launch) : (State.launch c l).Inv :=
  ⟨wf_load wf_nil l.image, reserved_setWidth l.flags, nofun⟩

/-- The reset state is the launch with nothing supplied. -/
theorem reset_eq_launch : State.reset = State.launch config Launch.bare := rfl

/-- Settles O39: a loaded memory is canonical, the flags take four bits, and nothing has stopped. -/
theorem everyLaunchHasTheInvariant : Obligations.EveryLaunchHasTheInvariant :=
  ⟨reset_eq_launch ▸ inv_launch config Launch.bare, inv_launch⟩

/-- Settles O40: the launched state has what the host supplies in its fields. -/
theorem launchSetsWhatResetSays : Obligations.LaunchSetsWhatResetSays := by
  intro c l
  refine ⟨rfl, rfl, readReg_zero _, fun n h => rfl, rfl, rfl, ?_⟩
  exact BitVec.toNat_setWidth_of_le (by decide)

end Sys2Proof.Machine
end

section
/-!
PROOFS. The step and the end of a run (30_encoding.md R48; 70_reset_and_hazards.md R107, R114).
-/

namespace Sys2Proof.Machine

/-! ### The step -/

/-- Settles O11: the fetched word is made of the two bytes at pc. -/
theorem stepRunsTheDecodedInstruction : Obligations.StepRunsTheDecodedInstruction :=
  fun _ _ hrun heven hi => step_eq_exec hrun heven hi

/-- Settles O12: the odd pc is found before anything is fetched. -/
theorem stepAtAnOddPcFaults : Obligations.StepAtAnOddPcFaults := by
  intro s hrun hodd
  obtain ⟨hfault, hhalted⟩ := (running_iff s).mp hrun
  have hstep : step s = .fault (.misalignedFetch s.pc) :=
    (cycle_running hfault hhalted).trans (if_pos ((isOdd_iff s.pc).mpr hodd))
  refine ⟨hstep, ?_⟩
  rw [advance, hstep, stateAfter_fault]
  rfl

/-! ### The placed word (log 6) -/

/-- Clearing bit 0 makes an address even. -/
theorem toNat_clearBit0_even (a : Word) : (a &&& 0xFFFE#16).toNat % 2 = 0 := by
  rw [← isOdd_eq_false_iff, isOdd, BitVec.getLsbD_and]
  exact Bool.and_false _

/-- Clearing bit 0 leaves an even address as it is. -/
theorem clearBit0_of_even {a : Word} (h : a.toNat % 2 = 0) : a &&& 0xFFFE#16 = a := by
  have h0 : a.getLsbD 0 = false := (isOdd_eq_false_iff a).mpr h
  apply BitVec.eq_of_getLsbD_eq
  intro i hi
  rw [BitVec.getLsbD_and]
  obtain rfl | hpos := Nat.eq_zero_or_pos i
  · rw [h0]
    rfl
  · have hbit : (0xFFFE#16).getLsbD i = true := by interval_cases i <;> rfl
    rw [hbit, Bool.and_true]

theorem withFetchWord_toNat (s : State) (w : Word) :
    s.withFetchWord 16 w.toNat = s.readyToRun w := by
  rw [State.withFetchWord, Nat.mod_eq_of_lt w.isLt, BitVec.ofNat_toNat, BitVec.setWidth_eq]

theorem fetch_readyToRun (s : State) (w : Word) : (s.readyToRun w).fetch = w :=
  readWord_writeWord_same s.mem (s.pc &&& 0xFFFE#16) w

theorem readyToRun_of_running {s : State} (hrun : s.running = true) (heven : s.pc.toNat % 2 = 0)
    (w : Word) : s.readyToRun w = { s with mem := s.mem.writeWord s.pc w } := by
  obtain ⟨hfault, hhalted⟩ := (running_iff s).mp hrun
  cases s
  cases hfault
  cases hhalted
  rw [State.readyToRun, clearBit0_of_even heven]

/-- Settles O13: the state with the word placed is running at an even pc, and fetches the word. -/
theorem placedWordRunsNext : Obligations.PlacedWordRunsNext := by
  intro s w i hi
  rw [withFetchWord_toNat]
  refine ⟨step_eq_exec rfl (toNat_clearBit0_even s.pc) ?decoded, fun hrun heven => ?placed⟩
  case decoded => rwa [fetch_readyToRun]
  case placed => exact readyToRun_of_running hrun heven w

/-! ### No step is refused (D1) -/

theorem shiftUnder_ne_refused (c : Config) (f : Word → Nat → Word) (rd rs rt : Reg) (s : State)
    (r : Refusal) : shiftUnder c f rd rs rt s ≠ .refused r := by
  obtain ⟨n, -, h⟩ | ⟨e, -, h⟩ := shiftUnder_cases c f rd rs rt s
  · rw [h]
    nofun
  · rw [h]
    nofun

/-- Only CALL, RET, PUSH and POP are refused, which are not well formed. -/
theorem wellFormed_of_execUnder_refused {c : Config} {i : Instr} {s : State} {r : Refusal}
    (h : execUnder c i s = .refused r) (x : ExtSpace) : i.wellFormed x = false := by
  cases i with
  | call | ret | push | pop => rfl
  | nop | add | addi | sub | and | or | xor | not | loadi | jmp | beq | bne | halt => cases h
  | shl | shr => exact (shiftUnder_ne_refused _ _ _ _ _ _ _ h).elim
  | load rd rs off4 =>
    have h := (loadUnder_eq c rd rs off4 s).symm.trans h
    split at h <;> cases h
  | store rd rs off4 =>
    have h := (storeUnder_eq c rd rs off4 s).symm.trans h
    split at h
    · cases h
    · split at h <;> cases h

/-- Settles O17: a refusal would come from a decoded instruction, and no word decodes to one that is
refused. -/
theorem noStepIsRefused : Obligations.NoStepIsRefused := by
  intro c s
  cases h : stepUnder c s with
  | next t => exact .inl ⟨t, rfl⟩
  | fault f => exact .inr ⟨f, rfl⟩
  | refused r =>
    obtain ⟨i, hi, hrefused⟩ := cycle_refused h
    exact absurd hi (decodeUnder_ne_ok (wellFormed_of_execUnder_refused hrefused c.extSpace))

/-! ### Runs under any parameters -/

theorem advanceUnder_config : advanceUnder config = advance := by
  funext s
  rw [advanceUnder, advance, stepUnder_config]

theorem runUnder_config (n : Nat) (s : State) : runUnder config n s = runFor n s := by
  rw [runUnder, runFor, advanceUnder_config]

theorem runUnder_succ (c : Config) (n : Nat) (s : State) :
    runUnder c (n + 1) s = runUnder c n (advanceUnder c s) := rfl

section
variable {c : Config} {s : State}

/-- A state that is not running has faulted, or halted without a fault. -/
theorem stopped_cases (h : s.running = false) :
    (∃ f, s.fault = some f) ∨ s.fault = none ∧ s.halted = true := by
  cases hf : s.fault with
  | some f => exact .inl ⟨f, rfl⟩
  | none =>
    refine .inr ⟨rfl, ?_⟩
    simpa [State.running, hf] using h

theorem advanceUnder_of_stopped (h : s.running = false) : advanceUnder c s = s := by
  obtain ⟨f, hf⟩ | ⟨hf, hh⟩ := stopped_cases h
  · rw [advanceUnder, stepUnder, cycle_faulted hf, stateAfter_fault, recordFault_of_eq hf]
  · rw [advanceUnder, stepUnder, cycle_halted hf hh, stateAfter_next]

theorem runUnder_of_stopped (h : s.running = false) (n : Nat) : runUnder c n s = s :=
  Function.iterate_fixed (advanceUnder_of_stopped h) n

theorem runFor_of_stopped (h : s.running = false) (n : Nat) : runFor n s = s :=
  (runUnder_config n s).symm.trans (runUnder_of_stopped h n)

theorem not_running_of_succeeded (h : s.succeeded = true) : s.running = false := by
  simp only [State.succeeded, Bool.and_eq_true] at h
  simp [State.running, h.1]

theorem not_running_of_failed (h : s.failed = true) : s.running = false := by
  simp only [State.failed, Option.isSome_iff_exists] at h
  obtain ⟨f, hf⟩ := h
  simp [State.running, hf]

theorem not_succeeded_of_failed (h : s.failed = true) : s.succeeded = false := by
  simp only [State.failed, Option.isSome_iff_exists] at h
  obtain ⟨f, hf⟩ := h
  simp [State.succeeded, hf]

theorem failed_recordFault (s : State) (f : Fault) : (s.recordFault f).failed = true := rfl

end

/-- Settles O14: an advance leaves a stopped state as it is. -/
theorem terminalStatesAreFinal : Obligations.TerminalStatesAreFinal :=
  fun _ h n => runFor_of_stopped h n

/-! ### A fault ends the run (D13) -/

section
variable {c : Config} {s : State} {f : Fault}

theorem advanceUnder_of_fault (h : stepUnder c s = .fault f) :
    advanceUnder c s = s.recordFault f := by
  rw [advanceUnder, h, stateAfter_fault]

theorem runUnder_recordFault (n : Nat) : runUnder c n (s.recordFault f) = s.recordFault f :=
  runUnder_of_stopped (not_running_of_failed (failed_recordFault s f)) n

/-- A successful end answers itself, so a step that raises a fault does not start from one. -/
theorem not_succeeded_of_fault (h : stepUnder c s = .fault f) : s.succeeded = false := by
  rw [← Bool.not_eq_true, State.succeeded, Bool.and_eq_true, Option.isNone_iff_eq_none]
  rintro ⟨hh, hf⟩
  rw [stepUnder, cycle_halted hf hh] at h
  cases h

theorem not_succeeded_runUnder (h : stepUnder c s = .fault f) (n : Nat) :
    (runUnder c n s).succeeded = false := by
  cases n with
  | zero => exact not_succeeded_of_fault h
  | succ n =>
    rw [runUnder_succ, advanceUnder_of_fault h, runUnder_recordFault]
    exact not_succeeded_of_failed (failed_recordFault s f)

theorem fault_ends_the_run (h : stepUnder c s = .fault f) :
    advanceUnder c s = s.recordFault f ∧
      (∀ n, runUnder c n (advanceUnder c s) = advanceUnder c s) ∧
      ∀ n, (runUnder c n s).succeeded = false := by
  refine ⟨advanceUnder_of_fault h, fun n => ?_, not_succeeded_runUnder h⟩
  rw [advanceUnder_of_fault h, runUnder_recordFault]

end

/-- Settles O15; the machine at the defaults is the configured one. -/
theorem aFaultChangesNothingAndEndsTheRun : Obligations.AFaultChangesNothingAndEndsTheRun := by
  refine ⟨fun _ _ _ => fault_ends_the_run, fun s f h => ?_⟩
  rw [← stepUnder_config] at h
  obtain ⟨hadvance, hfinal, hsucceeded⟩ := fault_ends_the_run h
  rw [advanceUnder_config] at hadvance hfinal
  refine ⟨hadvance, fun n => by rw [← runUnder_config, hfinal], ?_⟩
  rintro ⟨n, hn⟩
  have hno := hsucceeded (n + 1)
  rw [runUnder_succ, advanceUnder_config, runUnder_config, hn] at hno
  cases hno

/-! ### The end of a run (R107, R114) -/

section
variable {s : State}

theorem succeeded_or_failed_of_stopped (h : s.running = false) :
    s.succeeded = true ∨ s.failed = true := by
  obtain ⟨f, hf⟩ | ⟨hf, hh⟩ := stopped_cases h
  · exact .inr (by simp [State.failed, hf])
  · exact .inl (by simp [State.succeeded, hf, hh])

/-- A run stays where it has stopped. -/
theorem runFor_of_stopped_at {m : Nat} (h : (runFor m s).running = false) (n : Nat) :
    runFor (m + n) s = runFor m s := by
  rw [runFor_add, runFor_of_stopped h]

/-- Two ends of one run are the same state. -/
theorem runFor_eq_of_stopped {m n : Nat} (hm : (runFor m s).running = false)
    (hn : (runFor n s).running = false) : runFor m s = runFor n s := by
  rw [← runFor_of_stopped_at hm n, Nat.add_comm, runFor_of_stopped_at hn]

theorem ends_or_hangs (s : State) : EndsInSuccess s ∨ EndsInFault s ∨ Hangs s := by
  by_cases h : Hangs s
  · exact .inr (.inr h)
  · simp only [Hangs, not_forall, Bool.not_eq_true] at h
    obtain ⟨n, hn⟩ := h
    obtain hs | hf := succeeded_or_failed_of_stopped hn
    · exact .inl ⟨n, hs⟩
    · exact .inr (.inl ⟨n, hf⟩)

theorem not_hangs_of_stopped {n : Nat} (h : (runFor n s).running = false) : ¬Hangs s := by
  intro hs
  rw [hs n] at h
  cases h

theorem not_endsInFault_of_endsInSuccess (h : EndsInSuccess s) : ¬EndsInFault s := by
  obtain ⟨m, hm⟩ := h
  rintro ⟨n, hn⟩
  have heq := runFor_eq_of_stopped (not_running_of_succeeded hm) (not_running_of_failed hn)
  rw [heq, not_succeeded_of_failed hn] at hm
  cases hm

end

/-- Settles O45: a run that does not hang stops somewhere, and it stops in one state only. -/
theorem aRunHaltsFaultsOrHangs : Obligations.ARunHaltsFaultsOrHangs := by
  intro s
  refine ⟨ends_or_hangs s, ?_, ?_, ?_⟩
  · rintro ⟨hs, hf⟩
    exact not_endsInFault_of_endsInSuccess hs hf
  · rintro ⟨⟨n, hn⟩, hh⟩
    exact not_hangs_of_stopped (not_running_of_succeeded hn) hh
  · rintro ⟨⟨n, hn⟩, hh⟩
    exact not_hangs_of_stopped (not_running_of_failed hn) hh

end Sys2Proof.Machine
end

section
/-!
PROOFS. What no run depends on (10_state.md section 4 and section 5): sr with FLAGS, and sp and lr.
Both follow from one simulation: two machines that agree on the rest of the state go on agreeing.
-/

namespace Sys2Proof.Machine

/-- The two states agree on everything but sp, lr and sr, and their status registers are related by
`P`. -/
structure Alike (P : Word → Word → Prop) (s t : State) : Prop where
  regs : t.regs = s.regs
  pc : t.pc = s.pc
  mem : t.mem = s.mem
  halted : t.halted = s.halted
  fault : t.fault = s.fault
  sr : P s.sr t.sr

/-- Related status registers are related again once each machine has written its flags by its own
FLAGS. -/
def FlagsKeep (P : Word → Word → Prop) (c d : Config) : Prop :=
  ∀ k a b r u v, P u v →
    P (u.extractLsb' 4 12 ++ c.flags k a b r u) (v.extractLsb' 4 12 ++ d.flags k a b r v)

/-- The two answers are of one kind: alike next states, the same fault, or the same refusal. -/
inductive AnswersAlike (P : Word → Word → Prop) : Answer → Answer → Prop where
  | next {s t : State} (h : Alike P s t) : AnswersAlike P (.next s) (.next t)
  | fault (f : Fault) : AnswersAlike P (.fault f) (.fault f)
  | refused (r : Refusal) : AnswersAlike P (.refused r) (.refused r)

/-! ### A shift by its places (42_shift.md R72) -/

section
variable {c : Config} {f : Word → Nat → Word} {rd rs rt : Reg} {s : State}

theorem shiftUnder_of_ok {n : Nat} (h : shiftPlaces c.shiftOver (s.readReg rt) = .ok n) :
    shiftUnder c f rd rs rt s =
      .next (s.writeResult c .shift rd (s.readReg rs) (s.readReg rt) (f (s.readReg rs) n)) := by
  simp [shiftUnder, h]

theorem shiftUnder_of_error {e : Fault} (h : shiftPlaces c.shiftOver (s.readReg rt) = .error e) :
    shiftUnder c f rd rs rt s = .fault e := by
  simp [shiftUnder, h, raise]

end

/-! ### The operations keep states alike -/

section
variable {P : Word → Word → Prop} {s t : State} (h : Alike P s t)
include h

theorem Alike.readReg (r : Reg) : t.readReg r = s.readReg r := readReg_congr h.regs r

theorem Alike.effectiveAddress (rs : Reg) (off4 : BitVec 4) :
    effectiveAddress t rs off4 = effectiveAddress s rs off4 := by
  rw [Machine.effectiveAddress, Machine.effectiveAddress, h.readReg]

theorem Alike.loadWord (a : Word) : t.loadWord a = s.loadWord a := by
  rw [State.loadWord, State.loadWord, h.mem]

theorem Alike.fetch : t.fetch = s.fetch := by
  rw [State.fetch, State.fetch, h.pc, h.loadWord]

theorem Alike.setPc (a : Word) : Alike P (s.setPc a) (t.setPc a) :=
  ⟨h.regs, rfl, h.mem, h.halted, h.fault, h.sr⟩

theorem Alike.nextPc : Alike P s.nextPc t.nextPc := by
  rw [State.nextPc, State.nextPc, h.pc]
  exact h.setPc _

theorem Alike.writeReg (r : Reg) (v : Word) : Alike P (s.writeReg r v) (t.writeReg r v) := by
  match r with
  | ⟨0, _⟩ => exact h
  | ⟨n + 1, hn⟩ =>
    exact ⟨by simp only [State.writeReg, h.regs], h.pc, h.mem, h.halted, h.fault, h.sr⟩

theorem Alike.setFlags {f g : BitVec 4}
    (hP : P (s.sr.extractLsb' 4 12 ++ f) (t.sr.extractLsb' 4 12 ++ g)) :
    Alike P (s.setFlags f) (t.setFlags g) :=
  ⟨h.regs, h.pc, h.mem, h.halted, h.fault, hP⟩

theorem Alike.writeResult {c d : Config} (hcd : FlagsKeep P c d) (k : FlagKind) (rd : Reg)
    (a b r : Word) : Alike P (s.writeResult c k rd a b r) (t.writeResult d k rd a b r) := by
  refine ((h.writeReg rd r).setFlags ?_).nextPc
  rw [writeReg_sr, writeReg_sr]
  exact hcd k a b r s.sr t.sr h.sr

theorem Alike.storeWord (a v : Word) : Alike P (s.storeWord a v) (t.storeWord a v) :=
  ⟨h.regs, h.pc, congrArg (Memory.writeWord · a v) h.mem, h.halted, h.fault, h.sr⟩

theorem Alike.halt : Alike P s.halt t.halt := ⟨h.regs, h.pc, h.mem, rfl, h.fault, h.sr⟩

theorem Alike.recordFault (f : Fault) : Alike P (s.recordFault f) (t.recordFault f) :=
  ⟨h.regs, h.pc, h.mem, h.halted, rfl, h.sr⟩

theorem Alike.stateAfter {a b : Answer} (hab : AnswersAlike P a b) :
    Alike P (stateAfter s a) (stateAfter t b) := by
  cases hab with
  | next hnext => exact hnext
  | fault f => exact h.recordFault f
  | refused r => exact h

/-! ### The instructions -/

theorem Alike.branch {x y : Bool} (hxy : y = x) (off8 : BitVec 8) :
    AnswersAlike P (branch x off8 s) (branch y off8 t) := by
  subst hxy
  refine .next ?_
  split
  · rw [h.pc]
    exact h.setPc _
  · exact h.nextPc

variable {c d : Config} (hflags : FlagsKeep P c d)
include hflags

theorem Alike.shiftUnder (hover : d.shiftOver = c.shiftOver) (f : Word → Nat → Word)
    (rd rs rt : Reg) :
    AnswersAlike P (shiftUnder c f rd rs rt s) (shiftUnder d f rd rs rt t) := by
  have hplaces :
      shiftPlaces d.shiftOver (t.readReg rt) = shiftPlaces c.shiftOver (s.readReg rt) := by
    rw [hover, h.readReg]
  cases hp : shiftPlaces c.shiftOver (s.readReg rt) with
  | ok n =>
    rw [shiftUnder_of_ok hp, shiftUnder_of_ok (hplaces.trans hp), h.readReg, h.readReg]
    exact .next (h.writeResult hflags ..)
  | error e =>
    rw [shiftUnder_of_error hp, shiftUnder_of_error (hplaces.trans hp)]
    exact .fault e

omit hflags in
theorem Alike.loadUnder (rd rs : Reg) (off4 : BitVec 4) :
    AnswersAlike P (loadUnder c rd rs off4 s) (loadUnder d rd rs off4 t) := by
  rw [loadUnder_eq, loadUnder_eq, h.effectiveAddress, h.loadWord]
  split
  · exact .fault _
  · exact .next (h.writeReg rd _).nextPc

omit hflags in
theorem Alike.storeUnder (hwindow : d.smcWindow = c.smcWindow) (rd rs : Reg) (off4 : BitVec 4) :
    AnswersAlike P (storeUnder c rd rs off4 s) (storeUnder d rd rs off4 t) := by
  rw [storeUnder_eq, storeUnder_eq, h.effectiveAddress, h.readReg, h.pc, hwindow]
  split
  · exact .fault _
  · split
    · exact .fault _
    · exact .next (h.storeWord _ _).nextPc

/-- No instruction reads sp or lr, nor sr but to hand it to FLAGS. -/
theorem Alike.execUnder (hcd : SameButFlags c d) (i : Instr) :
    AnswersAlike P (execUnder c i s) (execUnder d i t) := by
  have hover : d.shiftOver = c.shiftOver := by rw [hcd]
  have hfill : d.shrFill = c.shrFill := by rw [hcd]
  have hwindow : d.smcWindow = c.smcWindow := by rw [hcd]
  cases i with
  | nop => exact .next h.nextPc
  | add rd rs rt | sub rd rs rt | and rd rs rt | or rd rs rt | xor rd rs rt =>
    refine .next ?_
    rw [h.readReg rs, h.readReg rt]
    exact h.writeResult hflags ..
  | addi rd imm8 =>
    refine .next ?_
    rw [h.readReg rd]
    exact h.writeResult hflags ..
  | not rd rs =>
    refine .next ?_
    rw [h.readReg rs]
    exact h.writeResult hflags ..
  | shl rd rs rt => exact h.shiftUnder hflags hover shiftLeft rd rs rt
  | shr rd rs rt =>
    unfold Machine.execUnder shrUnder
    rw [hfill]
    exact h.shiftUnder hflags hover _ rd rs rt
  | load rd rs off4 => exact h.loadUnder rd rs off4
  | store rd rs off4 => exact h.storeUnder hwindow rd rs off4
  | loadi rd imm8 => exact .next (h.writeReg rd _).nextPc
  | jmp addr12 => exact .next (h.setPc _)
  | beq rc off8 => exact h.branch (by rw [h.readReg]) off8
  | bne rc off8 => exact h.branch (by rw [h.readReg]) off8
  | halt => exact .next h.halt
  | call | ret | push | pop => exact .refused _

/-! ### The step and the run -/

theorem Alike.stepUnder (hcd : SameButFlags c d) :
    AnswersAlike P (stepUnder c s) (stepUnder d t) := by
  have hspace : d.extSpace = c.extSpace := by rw [hcd]
  unfold Machine.stepUnder
  cases hf : s.fault with
  | some f =>
    rw [cycle_faulted hf, cycle_faulted (h.fault.trans hf)]
    exact .fault f
  | none =>
    cases hh : s.halted with
    | true =>
      rw [cycle_halted hf hh, cycle_halted (h.fault.trans hf) (h.halted.trans hh)]
      exact .next h
    | false =>
      rw [cycle_running hf hh, cycle_running (h.fault.trans hf) (h.halted.trans hh), h.pc, h.fetch,
        hspace]
      split
      · exact .fault _
      · cases decodeUnder c.extSpace s.fetch with
        | ok i => exact h.execUnder hflags hcd i
        | error e => exact .fault _

theorem Alike.advanceUnder (hcd : SameButFlags c d) :
    Alike P (advanceUnder c s) (advanceUnder d t) :=
  h.stateAfter (h.stepUnder hflags hcd)

omit h in
/-- The simulation: alike states stay alike along the two runs. -/
theorem Alike.runUnder (hcd : SameButFlags c d) (n : Nat) {s t : State} (h : Alike P s t) :
    Alike P (runUnder c n s) (runUnder d n t) := by
  induction n generalizing s t with
  | zero => exact h
  | succ n ih => exact ih (h.advanceUnder hflags hcd)

end

/-! ### No run writes sp or lr (D16) -/

theorem advanceUnder_sp_lr (c : Config) (s : State) :
    (advanceUnder c s).sp = s.sp ∧ (advanceUnder c s).lr = s.lr := by
  unfold advanceUnder
  cases h : stepUnder c s with
  | next t =>
    obtain ⟨-, -, rfl⟩ | ⟨-, -, -, i, -, hi⟩ := cycle_next h
    · exact ⟨rfl, rfl⟩
    · have he := execUnder_effect hi
      exact ⟨he.sp, he.lr⟩
  | fault f => exact ⟨rfl, rfl⟩
  | refused r => exact ⟨rfl, rfl⟩

theorem runUnder_sp_lr (c : Config) (n : Nat) (s : State) :
    (runUnder c n s).sp = s.sp ∧ (runUnder c n s).lr = s.lr := by
  induction n generalizing s with
  | zero => exact ⟨rfl, rfl⟩
  | succ n ih =>
    obtain ⟨hsp, hlr⟩ := ih (advanceUnder c s)
    obtain ⟨hsp', hlr'⟩ := advanceUnder_sp_lr c s
    exact ⟨hsp.trans hsp', hlr.trans hlr'⟩

/-! ### sr and FLAGS (D7) -/

theorem sameButSr_iff (s t : State) :
    SameButSr s t ↔ Alike (fun _ _ => True) s t ∧ t.sp = s.sp ∧ t.lr = s.lr := by
  constructor
  · intro h
    rw [h]
    exact ⟨⟨rfl, rfl, rfl, rfl, rfl, trivial⟩, rfl, rfl⟩
  · rintro ⟨⟨hregs, hpc, hmem, hhalted, hfault, -⟩, hsp, hlr⟩
    cases t
    subst hregs hpc hmem hhalted hfault hsp hlr
    rfl

/-- Settles O43: states that differ in sr at most are alike with nothing asked of sr, so the
simulation holds whatever either FLAGS writes; sp and lr are written by neither run. -/
theorem statusRegisterNeverInfluencesARun : Obligations.StatusRegisterNeverInfluencesARun := by
  intro c d s t n hcd hst
  obtain ⟨halike, hsp, hlr⟩ := (sameButSr_iff s t).mp hst
  obtain ⟨hsp₁, hlr₁⟩ := runUnder_sp_lr c n s
  obtain ⟨hsp₂, hlr₂⟩ := runUnder_sp_lr d n t
  have hflags : FlagsKeep (fun _ _ => True) c d := fun _ _ _ _ _ _ _ => trivial
  refine (sameButSr_iff _ _).mpr ⟨Alike.runUnder hflags hcd n halike, ?_, ?_⟩
  · rw [hsp₁, hsp₂, hsp]
  · rw [hlr₁, hlr₂, hlr]

/-! ### sp and lr (D1, D16) -/

/-- States that are alike with equal status registers differ in sp and lr only. -/
theorem Alike.eq_with_sp_lr {s t : State} (h : Alike Eq s t) :
    t = { s with sp := t.sp, lr := t.lr } := by
  obtain ⟨hregs, hpc, hmem, hhalted, hfault, hsr⟩ := h
  cases t
  subst hregs hpc hmem hhalted hfault hsr
  rfl

theorem flagsKeep_eq (c : Config) : FlagsKeep Eq c c := by
  rintro k a b r u _ rfl
  rfl

/-- Settles O44: the simulation with equal status registers, from two states that differ in sp and
lr, and the frame of a run. -/
theorem stackPointerAndLinkRegisterAreInert : Obligations.StackPointerAndLinkRegisterAreInert := by
  intro s p l n
  have halike : Alike Eq s { s with sp := p, lr := l } := ⟨rfl, rfl, rfl, rfl, rfl, rfl⟩
  have hrun := (Alike.runUnder (flagsKeep_eq config) rfl n halike).eq_with_sp_lr
  obtain ⟨hsp, hlr⟩ := runUnder_sp_lr config n s
  obtain ⟨hsp', hlr'⟩ := runUnder_sp_lr config n { s with sp := p, lr := l }
  rw [hsp', hlr'] at hrun
  rw [runUnder_config] at hsp hlr
  rw [runUnder_config, runUnder_config] at hrun
  exact ⟨hrun, hsp, hlr⟩

end Sys2Proof.Machine
end

section
/-!
PROOFS. Memory as a canonical list (20_memory.md R22; log 3), and the image of a program in it
(70_reset_and_hazards.md R105).
-/

namespace Sys2Proof.Machine

/-! ### Canonical memories -/

theorem lookup_head (c : Host.Cell) (m : Memory) : Memory.lookup (c :: m) c.1 = c.2 := if_pos rfl

theorem lookup_tail {c : Host.Cell} {k : Nat} (h : c.1 ≠ k) (m : Memory) :
    Memory.lookup (c :: m) k = m.lookup k := if_neg h

section
variable {c : Host.Cell} {m : Memory} (h : Memory.wf (c :: m))
include h

/-- An address below the first entry's is not listed. -/
theorem lookup_below {k : Nat} (hk : k < c.1) : Memory.lookup (c :: m) k = unwrittenByte := by
  rw [lookup_tail (Nat.ne_of_gt hk)]
  exact lookup_unlisted fun d hd => Nat.ne_of_gt (Nat.lt_trans hk ((wf_cons h).2 d hd))

theorem lookup_tail_head : m.lookup c.1 = unwrittenByte :=
  lookup_unlisted fun d hd => Nat.ne_of_gt ((wf_cons h).2 d hd)

theorem head_ne_unwritten : c.2 ≠ unwrittenByte := (h.2 c List.mem_cons_self).2

/-- A first entry shows in every canonical memory that reads alike as its first entry too. -/
theorem head_le_of_lookup_eq {d : Host.Cell} {n : Memory} (hn : Memory.wf (d :: n))
    (heq : ∀ k, Memory.lookup (c :: m) k = Memory.lookup (d :: n) k) : d.1 ≤ c.1 := by
  by_contra hlt
  have hc := heq c.1
  rw [lookup_head, lookup_below hn (Nat.lt_of_not_le hlt)] at hc
  exact head_ne_unwritten h hc

end

/-- Two canonical memories with the same bytes at every natural number have the same first entry,
and tails that agree again. -/
theorem eq_of_lookup_eq {m n : Memory} (hm : m.wf) (hn : n.wf)
    (heq : ∀ k, m.lookup k = n.lookup k) : m = n := by
  induction m generalizing n with
  | nil =>
    match n, hn, heq with
    | [], _, _ => rfl
    | d :: n, hn, heq =>
      exact absurd ((heq d.1).trans (lookup_head d n)).symm (head_ne_unwritten hn)
  | cons c m ih =>
    match n, hn, heq with
    | [], _, heq => exact absurd ((lookup_head c m).symm.trans (heq c.1)) (head_ne_unwritten hm)
    | d :: n, hn, heq =>
      have hkey : c.1 = d.1 := Nat.le_antisymm (head_le_of_lookup_eq hn hm fun k => (heq k).symm)
        (head_le_of_lookup_eq hm hn heq)
      have hbyte : c.2 = d.2 := by
        have hc := heq c.1
        rwa [lookup_head, hkey, lookup_head] at hc
      obtain rfl : c = d := Prod.ext hkey hbyte
      rw [ih (wf_cons hm).1 (wf_cons hn).1 fun k => ?_]
      by_cases hk : c.1 = k
      · subst hk
        rw [lookup_tail_head hm, lookup_tail_head hn]
      · have hc := heq k
        rwa [lookup_tail hk, lookup_tail hk] at hc

/-- A canonical memory lists nothing outside the address space. -/
theorem lookup_outside {m : Memory} (hm : m.wf) {k : Nat} (hk : 65536 ≤ k) :
    m.lookup k = unwrittenByte :=
  lookup_unlisted fun c hc => Nat.ne_of_lt (Nat.lt_of_lt_of_le (hm.2 c hc).1 hk)

/-- Settles O3: inside the address space the memories read alike, and outside it nothing is listed,
so they have the same bytes at every natural number. -/
theorem canonicalMemoriesThatReadAlikeAreEqual :
    Obligations.CanonicalMemoriesThatReadAlikeAreEqual := by
  intro m n hm hn hread
  refine eq_of_lookup_eq hm hn fun k => ?_
  obtain hk | hk := Nat.lt_or_ge k 65536
  · have ha := hread (BitVec.ofNat 16 k)
    rwa [Memory.read, Memory.read, BitVec.toNat_ofNat, Nat.mod_eq_of_lt hk] at ha
  · rw [lookup_outside hm hk, lookup_outside hn hk]

/-! ### A program's image (D12, D23) -/

/-- Loading the image of a program stores its words one after the other. -/
theorem load_imageOf_cons (m : Memory) (o w : Word) (ws : List Word) :
    Memory.load m (imageOf o (w :: ws)) =
      Memory.load (m.writeWord o w) (imageOf (o + 2#16) ws) := rfl

/-- An address past the end of the image, counted from its origin modulo 2^16, reads as before. -/
theorem read_load_imageOf_outside {m : Memory} {o a : Word} {ws : List Word}
    (h : 2 * ws.length ≤ (a - o).toNat) : (Memory.load m (imageOf o ws)).read a = m.read a := by
  induction ws generalizing m o with
  | nil => rfl
  | cons w ws ih =>
    rw [List.length_cons] at h
    have hlow : a ≠ o := by bv_omega
    have hhigh : a ≠ o + 1#16 := by bv_omega
    rw [load_imageOf_cons, ih (by bv_omega), read_writeWord_other m w hlow hhigh]

/-- No word of an image wraps around to the one before it. -/
theorem readWord_load_imageOf_before (m : Memory) (o : Word) {ws : List Word}
    (h : ws.length < 32768) :
    (Memory.load m (imageOf (o + 2#16) ws)).readWord o = m.readWord o := by
  rw [Memory.readWord, Memory.readWord, read_load_imageOf_outside (by bv_omega),
    read_load_imageOf_outside (by bv_omega)]

theorem readWord_load_imageOf (m : Memory) (o : Word) {ws : List Word} (hlen : ws.length ≤ 32768)
    (k : Nat) (hk : k < ws.length) :
    (Memory.load m (imageOf o ws)).readWord (o + BitVec.ofNat 16 (2 * k)) = ws[k] := by
  induction ws generalizing m o k with
  | nil => exact absurd hk (Nat.not_lt_zero k)
  | cons w ws ih =>
    rw [load_imageOf_cons]
    cases k with
    | zero =>
      rw [Nat.mul_zero, BitVec.add_zero, readWord_load_imageOf_before _ o hlen,
        readWord_writeWord_same, List.getElem_cons_zero]
    | succ k =>
      have haddr : o + BitVec.ofNat 16 (2 * (k + 1)) = o + 2#16 + BitVec.ofNat 16 (2 * k) := by
        bv_omega
      rw [haddr, ih _ (o + 2#16) (Nat.le_of_succ_le hlen) k (Nat.lt_of_succ_lt_succ hk),
        List.getElem_cons_succ]

/-- Settles O41: the launched memory is the image loaded into an empty one. -/
theorem launchedProgramIsInMemory : Obligations.LaunchedProgramIsInMemory := by
  intro c l ws himage hlen k hk
  have hmem : (State.launch c l).mem = Memory.load [] (imageOf c.resetPc ws) :=
    congrArg (Memory.load []) himage
  rw [State.loadWord, hmem]
  exact readWord_load_imageOf [] c.resetPc hlen k hk

end Sys2Proof.Machine
end

section
/-!
PROOFS. The fault table (60_exceptions.md R93, R97): which instruction raises which fault, and where
a step does.
-/

namespace Sys2Proof.Machine

/-! ### The faults of an instruction -/

/-- The rows of the fault table that an instruction raises, by the instruction: an odd data address
before a hit of the window, and an amount of 16 or more when SHIFT_OVER is `fault`. -/
def Raises (c : Config) (s : State) (f : Fault) : Instr → Prop
  | .load _ rs off4 =>
    (effectiveAddress s rs off4).toNat % 2 = 1 ∧ f = .misalignedData (effectiveAddress s rs off4)
  | .store _ rs off4 =>
    (effectiveAddress s rs off4).toNat % 2 = 1 ∧ f = .misalignedData (effectiveAddress s rs off4) ∨
    (effectiveAddress s rs off4).toNat % 2 = 0 ∧
      (∃ j, 1 ≤ j ∧ j ≤ c.smcWindow ∧
        effectiveAddress s rs off4 = s.pc + BitVec.ofNat 16 (2 * j)) ∧
      f = .smcHazard (effectiveAddress s rs off4)
  | .shl _ _ rt => c.shiftOver = .fault ∧ 16 ≤ (s.readReg rt).toNat ∧ f = .shiftRange (s.readReg rt)
  | .shr _ _ rt => c.shiftOver = .fault ∧ 16 ≤ (s.readReg rt).toNat ∧ f = .shiftRange (s.readReg rt)
  | _ => False

theorem fault_eq_fault_iff {f g : Fault} : (.fault g : Answer) = .fault f ↔ f = g := by
  rw [Host.Outcome.fault.injEq, eq_comm]

section
variable (c : Config) (s : State) (f : Fault)

theorem loadUnder_fault_iff (rd rs : Reg) (off4 : BitVec 4) :
    loadUnder c rd rs off4 s = .fault f ↔ Raises c s f (.load rd rs off4) := by
  rw [loadUnder_eq]
  simp only [Raises, ← isOdd_iff]
  split
  next hodd =>
    rw [fault_eq_fault_iff]
    simp [hodd]
  next heven => simp [heven]

theorem storeUnder_fault_iff (rd rs : Reg) (off4 : BitVec 4) :
    storeUnder c rd rs off4 s = .fault f ↔ Raises c s f (.store rd rs off4) := by
  rw [storeUnder_eq]
  simp only [Raises, ← isOdd_iff, ← isOdd_eq_false_iff, ← hitsWindow_iff]
  split
  next hodd =>
    rw [fault_eq_fault_iff]
    simp [hodd]
  next heven =>
    split
    next hhit =>
      rw [fault_eq_fault_iff]
      simp [heven, hhit]
    next hmiss => simp [heven, hmiss]

theorem shiftPlaces_error_iff (rule : ShiftOver) (n : Word) :
    shiftPlaces rule n = .error f ↔ rule = .fault ∧ 16 ≤ n.toNat ∧ f = .shiftRange n := by
  cases rule with
  | zero | mod16 => simp [shiftPlaces]
  | fault =>
    simp only [shiftPlaces]
    split
    next h => simp [h, eq_comm]
    next h => simp [h]

theorem shiftUnder_fault_iff (shifted : Word → Nat → Word) (rd rs rt : Reg) :
    shiftUnder c shifted rd rs rt s = .fault f ↔
      c.shiftOver = .fault ∧ 16 ≤ (s.readReg rt).toNat ∧ f = .shiftRange (s.readReg rt) := by
  rw [← shiftPlaces_error_iff]
  cases h : shiftPlaces c.shiftOver (s.readReg rt) with
  | ok n => simp [shiftUnder_of_ok h]
  | error e => simp [shiftUnder_of_error h]

/-- An instruction raises a fault exactly where its rows of the table say. -/
theorem execUnder_fault_iff (i : Instr) : execUnder c i s = .fault f ↔ Raises c s f i := by
  cases i with
  | load rd rs off4 => exact loadUnder_fault_iff c s f rd rs off4
  | store rd rs off4 => exact storeUnder_fault_iff c s f rd rs off4
  | shl rd rs rt => exact shiftUnder_fault_iff c s f shiftLeft rd rs rt
  | shr rd rs rt => exact shiftUnder_fault_iff c s f (shiftRight c.shrFill) rd rs rt
  | nop | add | addi | sub | and | or | xor | not | loadi | jmp | beq | bne | halt | call | ret
  | push | pop => exact ⟨nofun, nofun⟩

end

/-! ### The faults of a step -/

section
variable {c : Config} {s : State} {f : Fault}

/-- A step raises a fault at an odd pc, on a refused word, or by its instruction. -/
theorem stepUnder_fault_iff (hrun : s.running = true) :
    stepUnder c s = .fault f ↔
      (s.pc.toNat % 2 = 1 ∧ f = .misalignedFetch s.pc) ∨
      (s.pc.toNat % 2 = 0 ∧
        ((c.extSpace = .refuse ∧ 0xF000 ≤ s.fetch.toNat ∧ s.fetch.toNat ≤ 0xF3FF ∧
            f = .refusedEncoding s.fetch) ∨
          ∃ i, decodeUnder c.extSpace s.fetch = .ok i ∧ Raises c s f i)) := by
  obtain ⟨hfault, hhalted⟩ := (running_iff s).mp hrun
  rw [stepUnder, cycle_running hfault hhalted, ← isOdd_iff, ← isOdd_eq_false_iff]
  cases hodd : isOdd s.pc with
  | true => simp [eq_comm]
  | false =>
    have hrefused := decodeUnder_error_iff c.extSpace s.fetch
    cases hi : decodeUnder c.extSpace s.fetch with
    | ok i =>
      have hno : ¬(c.extSpace = .refuse ∧ 0xF000 ≤ s.fetch.toNat ∧ s.fetch.toNat ≤ 0xF3FF) := by
        rw [← hrefused, hi]
        nofun
      constructor
      · intro h
        exact .inr ⟨rfl, .inr ⟨i, rfl, (execUnder_fault_iff c s f i).mp h⟩⟩
      · rintro (⟨⟨⟩, -⟩ | ⟨-, ⟨hx, hlow, hhigh, -⟩ | ⟨j, ⟨⟩, h⟩⟩)
        · exact absurd ⟨hx, hlow, hhigh⟩ hno
        · exact (execUnder_fault_iff c s f i).mpr h
    | error e =>
      obtain ⟨hx, hlow, hhigh⟩ := hrefused.mp ⟨e, hi⟩
      simp [hx, hlow, hhigh, eq_comm]

/-- What a decoded instruction raises, by the form of the instruction. -/
theorem exists_raises_iff {r : Except DecodeError Instr} :
    (∃ i, r = .ok i ∧ Raises c s f i) ↔
      (∃ rd rs off4, (r = .ok (.load rd rs off4) ∨ r = .ok (.store rd rs off4)) ∧
        (effectiveAddress s rs off4).toNat % 2 = 1 ∧
        f = .misalignedData (effectiveAddress s rs off4)) ∨
      (∃ rd rs off4 j, r = .ok (.store rd rs off4) ∧
        (effectiveAddress s rs off4).toNat % 2 = 0 ∧ 1 ≤ j ∧ j ≤ c.smcWindow ∧
        effectiveAddress s rs off4 = s.pc + BitVec.ofNat 16 (2 * j) ∧
        f = .smcHazard (effectiveAddress s rs off4)) ∨
      (∃ rd rs rt, (r = .ok (.shl rd rs rt) ∨ r = .ok (.shr rd rs rt)) ∧
        c.shiftOver = .fault ∧ 16 ≤ (s.readReg rt).toNat ∧ f = .shiftRange (s.readReg rt)) := by
  constructor
  · rintro ⟨i, rfl, h⟩
    cases i with
    | load rd rs off4 => exact .inl ⟨rd, rs, off4, .inl rfl, h⟩
    | store rd rs off4 =>
      obtain h | ⟨heven, ⟨j, hlow, hhigh, hea⟩, hf⟩ := h
      · exact .inl ⟨rd, rs, off4, .inr rfl, h⟩
      · exact .inr (.inl ⟨rd, rs, off4, j, rfl, heven, hlow, hhigh, hea, hf⟩)
    | shl rd rs rt => exact .inr (.inr ⟨rd, rs, rt, .inl rfl, h⟩)
    | shr rd rs rt => exact .inr (.inr ⟨rd, rs, rt, .inr rfl, h⟩)
    | nop | add | addi | sub | and | or | xor | not | loadi | jmp | beq | bne | halt | call | ret
    | push | pop => exact h.elim
  · rintro (⟨rd, rs, off4, hi | hi, h⟩ | ⟨rd, rs, off4, j, hi, heven, hlow, hhigh, hea, hf⟩ |
      ⟨rd, rs, rt, hi | hi, h⟩)
    · exact ⟨_, hi, h⟩
    · exact ⟨_, hi, .inl h⟩
    · exact ⟨_, hi, .inr ⟨heven, ⟨j, hlow, hhigh, hea⟩, hf⟩⟩
    · exact ⟨_, hi, h⟩
    · exact ⟨_, hi, h⟩

end

/-- Settles O50: the cycle's two faults, and the rows of each instruction written out. -/
theorem faultsAreExactlyTheTableUnderAnyParameters :
    Obligations.FaultsAreExactlyTheTableUnderAnyParameters := by
  intro c s f hrun
  rw [stepUnder_fault_iff hrun, exists_raises_iff]

/-- At the defaults only an odd data address is a fault of an instruction. -/
theorem raises_config_iff {s : State} {f : Fault} {i : Instr} :
    Raises config s f i ↔
      ∃ rd rs off4, (i = .load rd rs off4 ∨ i = .store rd rs off4) ∧
        (effectiveAddress s rs off4).toNat % 2 = 1 ∧
        f = .misalignedData (effectiveAddress s rs off4) := by
  constructor
  · intro h
    cases i with
    | load rd rs off4 => exact ⟨rd, rs, off4, .inl rfl, h⟩
    | store rd rs off4 =>
      obtain h | ⟨-, ⟨j, hlow, hhigh, -⟩, -⟩ := h
      · exact ⟨rd, rs, off4, .inr rfl, h⟩
      · exact absurd (Nat.le_trans hlow hhigh) (by decide)
    | shl | shr => cases h.1
    | nop | add | addi | sub | and | or | xor | not | loadi | jmp | beq | bne | halt | call | ret
    | push | pop => exact h.elim
  · rintro ⟨rd, rs, off4, rfl | rfl, h⟩
    · exact h
    · exact .inl h

/-- Settles O16: the table at the defaults, where EXT_SPACE refuses no word. -/
theorem faultsAreExactlyTheTwoAlwaysPossible :
    Obligations.FaultsAreExactlyTheTwoAlwaysPossible := by
  intro s f hrun
  have hspace : config.extSpace ≠ .refuse := by decide
  have hdecode : decodeUnder config.extSpace s.fetch = decode s.fetch := rfl
  rw [← stepUnder_config, stepUnder_fault_iff hrun, hdecode]
  simp only [raises_config_iff, hspace, false_and, false_or]
  cases decode s.fetch with
  | ok i => simp
  | error e => simp

/-! ### LOAD and STORE (43_memory_ops.md R75 to R77) -/

/-- Settles O28, from the rows of LOAD and STORE in the fault table. -/
theorem oddDataAddressFaults : Obligations.OddDataAddressFaults := by
  intro c s rd rs off4 hodd
  have hload (c : Config) : execUnder c (.load rd rs off4) s =
      .fault (.misalignedData (effectiveAddress s rs off4)) :=
    (execUnder_fault_iff c s _ _).mpr ⟨hodd, rfl⟩
  have hstore (c : Config) : execUnder c (.store rd rs off4) s =
      .fault (.misalignedData (effectiveAddress s rs off4)) :=
    (execUnder_fault_iff c s _ _).mpr (.inl ⟨hodd, rfl⟩)
  exact ⟨hload c, hstore c, hload config, hstore config⟩

/-- A STORE to an even address that hits no slot of the window completes. -/
theorem storeUnder_of_even {c : Config} {rd rs : Reg} {off4 : BitVec 4} {s : State}
    (heven : (effectiveAddress s rs off4).toNat % 2 = 0)
    (hwindow : hitsWindow c.smcWindow s.pc (effectiveAddress s rs off4) = false) :
    storeUnder c rd rs off4 s =
      .next (s.storeWord (effectiveAddress s rs off4) (s.readReg rd)).nextPc := by
  rw [storeUnder_eq, (isOdd_eq_false_iff _).mpr heven, hwindow]
  rfl

/-- At the defaults there is no window. -/
theorem exec_store_of_even {rd rs : Reg} {off4 : BitVec 4} {s : State}
    (heven : (effectiveAddress s rs off4).toNat % 2 = 0) :
    exec (.store rd rs off4) s =
      .next (s.storeWord (effectiveAddress s rs off4) (s.readReg rd)).nextPc :=
  storeUnder_of_even (c := config) heven (hitsWindow_zero _ _)

/-- Settles O32: a hit is STORE's second row of the fault table, and without one STORE completes as
it does with no window. -/
theorem smcWindowParameter : Obligations.SmcWindowParameter := by
  intro c s rd rs off4 ea hit heven
  refine ⟨fun hhit => ?hit, fun hmiss => ?miss⟩
  case hit => exact (execUnder_fault_iff c s _ _).mpr (.inr ⟨heven, hhit, rfl⟩)
  case miss =>
    have hwindow : hitsWindow c.smcWindow s.pc ea = false := by
      rw [← Bool.not_eq_true, hitsWindow_iff]
      exact hmiss
    rw [exec_store_of_even heven]
    exact storeUnder_of_even heven hwindow

end Sys2Proof.Machine
end

section
/-!
PROOFS. The computing instructions and LOADI (40_arithmetic.md to 42_shift.md, 43_memory_ops.md
R78): their flags, their frame, and the values of the shifts.
-/

namespace Sys2Proof.Machine

/-! ### The frame of a computing instruction (10_state.md R17) -/

section
variable (s : State) (c : Config) (k : FlagKind) (rd : Reg) (a b v : Word)

theorem computeFrame_writeResult : ComputeFrame rd s (s.writeResult c k rd a b v) :=
  ⟨(wroteReg_writeResult s c k rd a b v).2, sameMemory_of_mem_eq (writeResult_mem ..),
    ⟨writeResult_sp .., writeResult_lr .., writeResult_halted .., writeResult_fault ..⟩,
    writeResult_pc ..⟩

theorem wroteReg_writeReg_nextPc : WroteReg rd v s (s.writeReg rd v).nextPc := by
  constructor
  · rw [readReg_nextPc, readReg_writeReg_same]
  · intro q hq
    rw [readReg_nextPc, readReg_writeReg_other s v hq]

theorem computeFrame_writeReg_nextPc : ComputeFrame rd s (s.writeReg rd v).nextPc :=
  ⟨(wroteReg_writeReg_nextPc s rd v).2, sameMemory_of_mem_eq (writeReg_mem ..),
    ⟨writeReg_sp .., writeReg_lr .., writeReg_halted .., writeReg_fault ..⟩,
    congrArg (· + 2#16) (writeReg_pc s v rd)⟩

end

/-! ### The flags (R14) -/

theorem msb_iff (v : Word) : v.msb = true ↔ 32768 ≤ v.toNat := by
  rw [BitVec.msb_eq_decide, decide_eq_true_iff]

section
variable {s : State} {k : FlagKind} {rd : Reg} {a b v : Word}

/-- The flags after a result, from Z, N, C and V of the default FLAGS one by one. -/
theorem flagsAre_writeResult {pz pn pc pv : Prop} (hz : v = 0#16 ↔ pz) (hn : 32768 ≤ v.toNat ↔ pn)
    (hc : carryRule k a b s.sr = true ↔ pc) (hv : overflowRule k a b v s.sr = true ↔ pv) :
    FlagsAre pz pn pc pv s (s.writeResult config k rd a b v) := by
  have hflags : config.flags k a b v s.sr =
    packFlags (v == 0) v.msb (carryRule k a b s.sr) (overflowRule k a b v s.sr) := rfl
  obtain ⟨hZ, hN, hC, hV⟩ :=
    packFlags_bits (v == 0) v.msb (carryRule k a b s.sr) (overflowRule k a b v s.sr)
  rw [FlagsAre, writeResult_sr, hflags, flagZ_setFlags, flagN_setFlags, flagC_setFlags,
    flagV_setFlags, reserved_setFlags, hZ, hN, hC, hV]
  exact ⟨beq_iff_eq.trans hz, (msb_iff v).trans hn, hc, hv, rfl⟩

theorem eq_zero_iff_toNat (v : Word) : v = 0#16 ↔ v.toNat = 0 := BitVec.toNat_inj.symm

/-- Logic and shifts keep C and V. -/
theorem flagsAre_writeResult_keeping (hk : k = .logic ∨ k = .shift) :
    FlagsAre (v.toNat = 0) (32768 ≤ v.toNat) (flagC s.sr = true) (flagV s.sr = true) s
      (s.writeResult config k rd a b v) := by
  obtain rfl | rfl := hk
  · exact flagsAre_writeResult (eq_zero_iff_toNat v) .rfl .rfl .rfl
  · exact flagsAre_writeResult (eq_zero_iff_toNat v) .rfl .rfl .rfl

/-- A word as an integer: the upper half of the words is negative. -/
theorem toInt_word (a : Word) :
    a.toInt = if 32768 ≤ a.toNat then (a.toNat : Int) - 65536 else a.toNat := by
  rw [BitVec.toInt_eq_toNat_cond]
  split <;> split <;> omega

/-- The sign bits tell exactly when a sum does not fit (R14). -/
theorem overflowRule_add_iff (a b sr : Word) :
    overflowRule .add a b (a + b) sr = true ↔ overflows (a.toInt + b.toInt) := by
  have ha := a.isLt
  have hb := b.isLt
  simp only [overflowRule, overflows, BitVec.msb_eq_decide, BitVec.toNat_add, toInt_word,
    Bool.and_eq_true, beq_iff_eq, bne_iff_ne, ne_eq, decide_eq_decide]
  split <;> split <;> omega

/-- The sign bits tell exactly when a difference does not fit (R14). -/
theorem overflowRule_sub_iff (a b sr : Word) :
    overflowRule .sub a b (a - b) sr = true ↔ overflows (a.toInt - b.toInt) := by
  have ha := a.isLt
  have hb := b.isLt
  simp only [overflowRule, overflows, BitVec.msb_eq_decide, BitVec.toNat_sub, toInt_word,
    Bool.and_eq_true, bne_iff_ne, ne_eq, decide_eq_decide]
  split <;> split <;> omega

theorem toInt_immOperand (imm8 : BitVec 8) : (immOperand imm8).toInt = imm8.toInt :=
  BitVec.toInt_signExtend_of_le (by decide)

theorem flagsAre_add :
    FlagsAre ((a.toNat + b.toNat) % 65536 = 0) (32768 ≤ (a.toNat + b.toNat) % 65536)
      (65536 ≤ a.toNat + b.toNat) (overflows (a.toInt + b.toInt)) s
      (s.writeResult config .add rd a b (a + b)) := by
  have hsum : (a + b).toNat = (a.toNat + b.toNat) % 65536 := BitVec.toNat_add a b
  refine flagsAre_writeResult ?_ ?_ decide_eq_true_iff (overflowRule_add_iff a b s.sr)
  · rw [eq_zero_iff_toNat, hsum]
  · rw [hsum]

theorem flagsAre_addi {imm8 : BitVec 8} :
    FlagsAre ((a.toNat + imm8.toInt) % 65536 = 0) (32768 ≤ (a.toNat + imm8.toInt) % 65536)
      (65536 ≤ a.toNat + imm8.toInt % 65536) (overflows (a.toInt + imm8.toInt)) s
      (s.writeResult config .add rd a (immOperand imm8) (a + immOperand imm8)) := by
  have hsum := toNat_add_immOperand a imm8
  have himm := toNat_immOperand imm8
  refine flagsAre_writeResult ?_ ?_ (decide_eq_true_iff.trans ?_) ?_
  · rw [eq_zero_iff_toNat]
    omega
  · omega
  · omega
  · rw [overflowRule_add_iff, toInt_immOperand]

theorem flagsAre_sub :
    FlagsAre (a = b) (32768 ≤ (a.toNat - b.toNat : Int) % 65536) (a.toNat < b.toNat)
      (overflows (a.toInt - b.toInt)) s (s.writeResult config .sub rd a b (a - b)) := by
  have hdiff := toNat_sub_word a b
  refine flagsAre_writeResult sub_eq_zero ?_ decide_eq_true_iff (overflowRule_sub_iff a b s.sr)
  omega

end

/-- Settles O20: each of the three answers the state that `writeResult` leaves, with the flags of
its exact sum or difference. -/
theorem arithmeticFlagsAndFrame : Obligations.ArithmeticFlagsAndFrame := by
  intro s rd rs rt imm8
  exact ⟨⟨_, exec_add s rd rs rt, computeFrame_writeResult .., flagsAre_add⟩,
    ⟨_, exec_addi s rd imm8, computeFrame_writeResult .., flagsAre_addi⟩,
    ⟨_, exec_sub s rd rs rt, computeFrame_writeResult .., flagsAre_sub⟩⟩

/-! ### Logic (41_logical.md R67 to R71) -/

/-- An instruction that writes a logical result computes the bits of that result. -/
theorem computesBits_of_exec {i : Instr} {s : State} {rd : Reg} {a b v : Word} {bit : Nat → Bool}
    (h : exec i s = .next (s.writeResult config .logic rd a b v))
    (hbit : ∀ k, k < 16 → v.getLsbD k = bit k) : ComputesBits i rd bit s :=
  ⟨_, v, h, hbit, wroteReg_writeResult .., computeFrame_writeResult ..,
    flagsAre_writeResult_keeping (.inl rfl)⟩

/-- Settles O22, from the bits of each bitwise operation. -/
theorem logicActsBitByBit : Obligations.LogicActsBitByBit := by
  intro s rd rs rt a b
  refine ⟨computesBits_of_exec rfl fun k _ => BitVec.getLsbD_and,
    computesBits_of_exec rfl fun k _ => BitVec.getLsbD_or,
    computesBits_of_exec rfl fun k _ => BitVec.getLsbD_xor,
    computesBits_of_exec rfl fun k hk => ?_⟩
  rw [BitVec.getLsbD_not, decide_eq_true hk, Bool.true_and]

/-! ### Shifts (42_shift.md R72 to R74) -/

section
variable (a : Word) (n : Nat)

/-- From 16 places on nothing of the value is left, as the bit vector's own shift has it. -/
theorem shiftLeft_eq : shiftLeft a n = a <<< n := by
  unfold shiftLeft
  split
  next h => exact (BitVec.shiftLeft_eq_zero h).symm
  next => rfl

theorem shiftRight_logical_eq : shiftRight .logical a n = a >>> n := by
  simp only [shiftRight]
  split
  next h => exact (BitVec.ushiftRight_eq_zero h).symm
  next => rfl

/-- From 16 places on the fill is all that is left. -/
theorem shiftRight_arithmetic_eq : shiftRight .arithmetic a n = a.sshiftRight n := by
  simp only [shiftRight]
  split
  next h =>
    cases hmsb : a.msb with
    | true =>
      rw [BitVec.sshiftRight_eq_of_msb_true hmsb, BitVec.ushiftRight_eq_zero h]
      rfl
    | false =>
      rw [BitVec.sshiftRight_eq_of_msb_false hmsb, BitVec.ushiftRight_eq_zero h]
      rfl
  next => rfl

theorem toNat_shiftLeft : (shiftLeft a n).toNat = a.toNat * 2 ^ n % 65536 := by
  rw [shiftLeft_eq, BitVec.toNat_shiftLeft, Nat.shiftLeft_eq]

theorem toNat_shiftRight_logical : (shiftRight .logical a n).toNat = a.toNat / 2 ^ n := by
  rw [shiftRight_logical_eq, BitVec.toNat_ushiftRight, Nat.shiftRight_eq_div_pow]

/-- Copies of the sign bit divide the signed value, rounding down. -/
theorem toInt_shiftRight_arithmetic : (shiftRight .arithmetic a n).toInt = a.toInt / 2 ^ n := by
  rw [shiftRight_arithmetic_eq, BitVec.toInt_sshiftRight, Int.shiftRight_eq_div_pow, Nat.cast_pow]
  rfl

end

theorem computesValue_of_exec {i : Instr} {s : State} {rd : Reg} {a b v : Word} {n : Nat}
    (h : exec i s = .next (s.writeResult config .shift rd a b v)) (hv : v.toNat = n) :
    ComputesValue i rd n s := by
  subst hv
  exact ⟨_, v, h, rfl, wroteReg_writeResult .., computeFrame_writeResult ..,
    flagsAre_writeResult_keeping (.inr rfl)⟩

/-- Settles O23: by default the places are the whole amount register. -/
theorem shiftsAreTheMathematicalOnes : Obligations.ShiftsAreTheMathematicalOnes := by
  intro s rd rs rt a n
  have hplaces : shiftPlaces config.shiftOver (s.readReg rt) = .ok n := rfl
  exact ⟨computesValue_of_exec (shiftUnder_of_ok hplaces) (toNat_shiftLeft _ n),
    computesValue_of_exec (shiftUnder_of_ok hplaces) (toNat_shiftRight_logical _ n)⟩

/-! ### The parameters of the shifts (R72, D8) -/

/-- Below 16 places SHIFT_OVER does not matter. -/
theorem shiftPlaces_of_lt (rule : ShiftOver) {n : Word} (h : n.toNat < 16) :
    shiftPlaces rule n = .ok n.toNat := by
  cases rule with
  | zero => rfl
  | mod16 => exact congrArg Except.ok (Nat.mod_eq_of_lt h)
  | fault => exact if_neg (Nat.not_le_of_lt h)

theorem shiftPlaces_mod16 (n : Word) : shiftPlaces .mod16 n = .ok (n.toNat % 16) := rfl

/-- A result depends on the parameters by FLAGS only. -/
theorem writeResult_congr {c d : Config} (h : c.flags = d.flags) (s : State) (k : FlagKind)
    (rd : Reg) (a b v : Word) : s.writeResult c k rd a b v = s.writeResult d k rd a b v := by
  rw [State.writeResult, State.writeResult, h]

section
variable {c : Config} {s : State} {rd rs rt : Reg}

/-- Below 16 places, with the default FLAGS, a shift answers what it does by default. -/
theorem shiftUnder_eq_of_lt (hflags : c.flags = config.flags) (hn : (s.readReg rt).toNat < 16)
    (f : Word → Nat → Word) : shiftUnder c f rd rs rt s = shiftUnder config f rd rs rt s := by
  rw [shiftUnder_of_ok (shiftPlaces_of_lt _ hn), shiftUnder_of_ok (shiftPlaces_of_lt _ hn),
    writeResult_congr hflags]

theorem execUnder_shr {fill : ShrFill} (h : c.shrFill = fill) :
    execUnder c (.shr rd rs rt) s = shiftUnder c (shiftRight fill) rd rs rt s := by
  subst h
  rfl

end

/-- Settles O24: the three settings, by the places each gives. -/
theorem shiftOverParameter : Obligations.ShiftOverParameter := by
  intro c s rd rs rt a n
  refine ⟨fun hover hn => ?fault, fun hover => ?mod16, fun hn hflags => ?below⟩
  case fault =>
    exact ⟨(execUnder_fault_iff c s _ _).mpr ⟨hover, hn, rfl⟩,
      (execUnder_fault_iff c s _ _).mpr ⟨hover, hn, rfl⟩⟩
  case mod16 =>
    have hplaces : shiftPlaces c.shiftOver (s.readReg rt) = .ok (n % 16) :=
      hover ▸ shiftPlaces_mod16 (s.readReg rt)
    exact ⟨⟨_, _, shiftUnder_of_ok hplaces, wroteReg_writeResult .., toNat_shiftLeft _ _⟩,
      fun hfill => ⟨_, _, (execUnder_shr hfill).trans (shiftUnder_of_ok hplaces),
        wroteReg_writeResult .., toNat_shiftRight_logical _ _⟩⟩
  case below =>
    exact ⟨shiftUnder_eq_of_lt hflags hn shiftLeft,
      fun hfill => (execUnder_shr hfill).trans (shiftUnder_eq_of_lt hflags hn _)⟩

/-- SHR with the sign as its fill divides by the power of two of its places. -/
theorem execUnder_shr_arithmetic {c : Config} {s : State} {rd rs rt : Reg} {k : Nat}
    (hfill : c.shrFill = .arithmetic) (hplaces : shiftPlaces c.shiftOver (s.readReg rt) = .ok k) :
    ∃ t v, execUnder c (.shr rd rs rt) s = .next t ∧ WroteReg rd v s t ∧ ComputeFrame rd s t ∧
      v.toInt = (s.readReg rs).toInt / 2 ^ k :=
  ⟨_, _, (execUnder_shr hfill).trans (shiftUnder_of_ok hplaces), wroteReg_writeResult ..,
    computeFrame_writeResult .., toInt_shiftRight_arithmetic _ k⟩

/-- Settles O25, by the places each setting of SHIFT_OVER gives. -/
theorem arithmeticFillRoundsDown : Obligations.ArithmeticFillRoundsDown := by
  intro c s rd rs rt n dividesBy hfill
  refine ⟨fun hover => ?zero, fun hover => ?mod16, fun _ hn => ?fault⟩
  case zero => exact execUnder_shr_arithmetic hfill (hover ▸ rfl)
  case mod16 => exact execUnder_shr_arithmetic hfill (hover ▸ shiftPlaces_mod16 _)
  case fault => exact execUnder_shr_arithmetic hfill (shiftPlaces_of_lt _ hn)

/-! ### LOADI (43_memory_ops.md R78) -/

theorem exec_loadi (s : State) (rd : Reg) (imm8 : BitVec 8) :
    exec (.loadi rd imm8) s = .next (s.writeReg rd (immOperand imm8)).nextPc := rfl

/-- Settles O29: a register write and no more, of the sign-extended immediate. -/
theorem loadImmediateSignExtends : Obligations.LoadImmediateSignExtends := by
  intro s rd imm8
  exact ⟨_, _, exec_loadi s rd imm8, toInt_immOperand imm8, wroteReg_writeReg_nextPc ..,
    computeFrame_writeReg_nextPc .., writeReg_sr ..⟩

end Sys2Proof.Machine
end

section
/-!
PROOFS. LOAD and STORE at an even address (43_memory_ops.md R75 to R77; 20_memory.md R27 to R37).
-/

namespace Sys2Proof.Machine

section
variable {s t : State} {rd rs : Reg} {off4 : BitVec 4}

theorem toNat_effectiveAddress (s : State) (rs : Reg) (off4 : BitVec 4) :
    (effectiveAddress s rs off4).toNat = ((s.readReg rs).toNat + off4.toNat) % 65536 := by
  rw [effectiveAddress, BitVec.toNat_add, offOperand, BitVec.toNat_setWidth_of_le (by decide)]

theorem exec_load_of_even (heven : (effectiveAddress s rs off4).toNat % 2 = 0) :
    exec (.load rd rs off4) s =
      .next (s.writeReg rd (s.loadWord (effectiveAddress s rs off4))).nextPc := by
  refine (loadUnder_eq config rd rs off4 s).trans ?_
  rw [(isOdd_eq_false_iff _).mpr heven]
  rfl

/-- A STORE that completes was at an even address, and left the stored word there. -/
theorem of_exec_store_next (h : exec (.store rd rs off4) s = .next t) :
    (effectiveAddress s rs off4).toNat % 2 = 0 ∧
      t = (s.storeWord (effectiveAddress s rs off4) (s.readReg rd)).nextPc := by
  obtain heven | hodd := Nat.mod_two_eq_zero_or_one (effectiveAddress s rs off4).toNat
  · rw [exec_store_of_even heven] at h
    cases h
    exact ⟨heven, rfl⟩
  · rw [(oddDataAddressFaults config s rd rs off4 hodd).2.2.2] at h
    cases h

end

/-- Settles O26: the address is a sum modulo 2^16, and the word there is written as LOADI writes its
immediate. -/
theorem loadReadsTheWord : Obligations.LoadReadsTheWord := by
  intro s rd rs off4 ea
  refine ⟨toNat_effectiveAddress s rs off4, fun heven => ⟨_, _, exec_load_of_even heven, ?_,
    wroteReg_writeReg_nextPc .., computeFrame_writeReg_nextPc .., writeReg_sr ..⟩⟩
  exact toNat_wordOfBytes (s.mem.read ea) (s.mem.read (ea + 1#16))

/-- Settles O27: STORE is `storeWord` and an advanced pc, so the bytes are those of O2. -/
theorem storeWritesTheWord : Obligations.StoreWritesTheWord := by
  intro s rd rs off4 ea heven
  obtain ⟨hlow, hhigh, hothers, hregs, hspecials, -, hsr⟩ :=
    memWriteChangesTwoBytes s ea (s.readReg rd) heven
  exact ⟨_, exec_store_of_even heven, hlow, hhigh, hothers, hregs, hspecials, hsr, rfl⟩

/-- Settles O30: the LOAD finds the same even address, and reads the word where it was stored. -/
theorem storedWordIsLoadedBack : Obligations.StoredWordIsLoadedBack := by
  intro s t rd rs rd' rs' off4 off4' hstore hea
  obtain ⟨heven, ht⟩ := of_exec_store_next hstore
  have hword : t.loadWord (effectiveAddress t rs' off4') = s.readReg rd := by
    rw [hea, ht]
    exact readWord_writeWord_same ..
  refine ⟨_, exec_load_of_even (hea ▸ heven), ?_⟩
  rw [hword]
  exact wroteReg_writeReg_nextPc t rd' (s.readReg rd)

theorem toNat_add_two_even {a : Word} (h : a.toNat % 2 = 0) : (a + 2#16).toNat % 2 = 0 := by
  rw [BitVec.toNat_add, show (2#16).toNat = 2 from rfl]
  omega

/-- Settles O31: after the STORE the machine still runs, at the even address that holds the stored
word. -/
theorem storedInstructionRunsNext : Obligations.StoredInstructionRunsNext := by
  intro s rd rs off4 i hrun heven hstore hea hi
  have hnext := toNat_add_two_even heven
  refine ⟨_, (step_eq_exec hrun heven hstore).trans (exec_store_of_even (hea ▸ hnext)), ?_⟩
  refine step_eq_exec hrun hnext ?_
  rw [hea]
  exact (congrArg decode (readWord_writeWord_same ..)).trans hi

end Sys2Proof.Machine
end

section
/-!
PROOFS. Control flow (44_control_flow.md R79 to R82), NOP, HALT, and the forms with R0.
-/

namespace Sys2Proof.Machine

/-! ### The meanings -/

section
variable (s : State) (rc : Reg) (off8 : BitVec 8) (addr12 : BitVec 12)

theorem exec_jmp : exec (.jmp addr12) s = .next (s.setPc (jumpTarget addr12)) := rfl

theorem exec_halt : exec .halt s = .next s.halt := rfl

theorem exec_beq : exec (.beq rc off8) s =
    .next (if s.readReg rc = 0#16 then s.setPc (branchTarget s.pc off8) else s.nextPc) := by
  simp [exec, execBeq, branch]

theorem exec_bne : exec (.bne rc off8) s =
    .next (if s.readReg rc = 0#16 then s.nextPc else s.setPc (branchTarget s.pc off8)) := by
  simp [exec, execBne, branch]

theorem toNat_jumpTarget : (jumpTarget addr12).toNat = addr12.toNat :=
  BitVec.toNat_setWidth_of_le (by decide)

/-- A branch offset is extended as an immediate is (R45, R79). -/
theorem toNat_branchTarget (pc : Word) :
    ((branchTarget pc off8).toNat : Int) = (pc.toNat + off8.toInt) % 65536 :=
  toNat_add_immOperand pc off8

theorem toNat_add_two (pc : Word) : (pc + 2#16).toNat = (pc.toNat + 2) % 65536 :=
  BitVec.toNat_add pc 2#16

end

/-- Settles O33: the field is extended with zeros. -/
theorem jumpGoesToItsAddress : Obligations.JumpGoesToItsAddress :=
  fun s addr12 => ⟨_, exec_jmp s addr12, rfl, toNat_jumpTarget addr12⟩

/-- Settles O34, by whether the register is zero. -/
theorem branchesTestOneRegister : Obligations.BranchesTestOneRegister := by
  intro s rc off8
  have htaken := toNat_branchTarget off8 s.pc
  have hnot : ((s.pc + 2#16).toNat : Int) = (s.pc.toNat + 2) % 65536 :=
    congrArg Nat.cast (toNat_add_two s.pc)
  rw [exec_beq, exec_bne]
  by_cases h : s.readReg rc = 0#16
  · rw [if_pos h, if_pos h, if_pos h, if_pos h]
    exact ⟨⟨_, rfl, rfl, htaken⟩, ⟨_, rfl, rfl, hnot⟩⟩
  · rw [if_neg h, if_neg h, if_neg h, if_neg h]
    exact ⟨⟨_, rfl, rfl, hnot⟩, ⟨_, rfl, rfl, htaken⟩⟩

/-! ### NOP (R63, D9) -/

/-- The words of opcode digit 0 are NOP, whatever their spare bits (R50). -/
theorem decode_nop {w : Word} (h : w.toNat ≤ 0x0FFF) : decode w = .ok .nop := by
  have hop : (opField w).val = 0 := by
    rw [opField_val]
    omega
  exact decodeUnder_of_opField _ hop (by decide)

/-- Settles O21, from the words of digit 0 and from the pc that `nextPc` leaves. -/
theorem nopOnlyAdvances : Obligations.NopOnlyAdvances :=
  ⟨fun _ => decode_nop, fun s => ⟨_, exec_nop s, rfl, toNat_add_two s.pc⟩⟩

/-! ### HALT (R88, D11) -/

/-- Settles O35: the halted state is stopped, so no number of steps leaves it. -/
theorem haltStopsTheMachine : Obligations.HaltStopsTheMachine := by
  intro s
  refine ⟨_, exec_halt s, rfl, readReg_halt s, sameMemory_of_mem_eq rfl, rfl, rfl, rfl, rfl,
    fun hf => ⟨?succeeded, runFor_of_stopped rfl⟩⟩
  case succeeded => rw [State.succeeded, halt_halted, halt_fault, hf]; rfl

/-! ### R0 (10_state.md R9, D21) -/

/-- Settles O36: R0 reads as zero, so BNE is not taken and BEQ is, and a write to it changes no
register; ADD still writes Z. -/
theorem zeroRegisterForms : Obligations.ZeroRegisterForms := by
  intro s off8 imm8 rs rt
  refine ⟨?bne, ?beq, ?loadi, _, exec_add s 0 rs rt, rfl, flagsAre_add.1⟩
  case bne => rw [exec_bne, readReg_zero, if_pos rfl]; rfl
  case beq => rw [exec_beq, readReg_zero, if_pos rfl]; rfl
  case loadi => rw [exec_loadi, writeReg_zero]; rfl

/-! ### Odd targets (20_memory.md R28) -/

/-- The parity of a branch target is that of the offset, from an even pc. -/
theorem toNat_branchTarget_mod_two {pc : Word} (heven : pc.toNat % 2 = 0) (off8 : BitVec 8) :
    (branchTarget pc off8).toNat % 2 = off8.toNat % 2 := by
  have h := toNat_branchTarget off8 pc
  rw [BitVec.toInt_eq_toNat_cond] at h
  split at h <;> omega

/-- The step of a running machine that answers a next state ran the decoded instruction at an even
pc. -/
theorem of_step_next {s t : State} (hrun : s.running = true) (h : step s = .next t) :
    s.pc.toNat % 2 = 0 ∧ ∃ i, decode s.fetch = .ok i ∧ exec i s = .next t := by
  obtain ⟨-, hhalted⟩ := (running_iff s).mp hrun
  obtain ⟨-, hh, -⟩ | ⟨-, -, hp, i, hi, hexec⟩ := cycle_next h
  · rw [hhalted] at hh
    cases hh
  · exact ⟨(isOdd_eq_false_iff s.pc).mp hp, i, hi, hexec⟩

/-- Settles O18: an instruction in sequence goes on at an even pc and HALT stays there, so the
instruction is a JMP or a branch that is taken, whose target has the parity of its field. -/
theorem anOddPcComesFromATransfer : Obligations.AnOddPcComesFromATransfer := by
  intro s t hrun hstep hodd
  obtain ⟨heven, i, hi, hexec⟩ := of_step_next hrun hstep
  cases hseq : leavesSequence s i with
  | false =>
    rw [exec_advances hseq t hexec, toNat_add_two_even heven] at hodd
    cases hodd
  | true =>
    cases i with
    | jmp addr12 =>
      rw [exec_jmp] at hexec
      cases hexec
      exact .inl ⟨addr12, hi, toNat_jumpTarget addr12 ▸ hodd⟩
    | beq rc off8 =>
      have hzero : s.readReg rc = 0#16 := beq_iff_eq.mp hseq
      rw [exec_beq, if_pos hzero] at hexec
      cases hexec
      exact .inr (.inl ⟨rc, off8, hi, hzero, toNat_branchTarget_mod_two heven off8 ▸ hodd⟩)
    | bne rc off8 =>
      have hzero : s.readReg rc ≠ 0#16 := bne_iff_ne.mp hseq
      rw [exec_bne, if_neg hzero] at hexec
      cases hexec
      exact .inr (.inr ⟨rc, off8, hi, hzero, toNat_branchTarget_mod_two heven off8 ▸ hodd⟩)
    | halt =>
      rw [exec_halt] at hexec
      cases hexec
      rw [halt_pc, heven] at hodd
      cases hodd
    | nop | add | addi | sub | and | or | xor | not | shl | shr | load | store | loadi | call | ret
    | push | pop => cases hseq

/-! ### Hangs (R114) -/

theorem runFor_of_step_self {s : State} (h : step s = .next s) (n : Nat) : runFor n s = s :=
  Function.iterate_fixed (congrArg (stateAfter s) h) n

/-- A running machine whose step answers the same state hangs. -/
theorem hangs_of_step_self {s : State} (hrun : s.running = true) (h : step s = .next s) :
    Hangs s := by
  intro n
  rw [runFor_of_step_self h, hrun]

/-- BEQ R0 with offset 0 goes to its own address (D2). -/
theorem exec_beq_self (s : State) : exec (.beq 0 0#8) s = .next s := by
  have htarget : branchTarget s.pc 0#8 = s.pc := BitVec.add_zero s.pc
  rw [exec_beq, readReg_zero, if_pos rfl, htarget]
  rfl

/-- A JMP to an address in its reach is the word 0xD000 plus the address (D3). -/
theorem encode_jmp_setWidth {a : Word} (h : a.toNat ≤ 0x0FFF) :
    encode (.jmp (a.setWidth 12)) = 0xD000#16 + a := by
  apply BitVec.eq_of_toNat_eq
  rw [encode, toNat_packJ, BitVec.toNat_setWidth, BitVec.toNat_add,
    show (0xD#4).toNat = 13 from rfl, show (0xD000#16).toNat = 53248 from rfl]
  omega

theorem jumpTarget_setWidth {a : Word} (h : a.toNat ≤ 0x0FFF) : jumpTarget (a.setWidth 12) = a := by
  apply BitVec.eq_of_toNat_eq
  rw [toNat_jumpTarget, BitVec.toNat_setWidth]
  omega

/-- Settles O37: each of the two words decodes to an instruction that answers the same state. -/
theorem selfBranchesHang : Obligations.SelfBranchesHang := by
  rintro s hrun heven (hword | ⟨hle, hword⟩)
  · have hi : decode s.fetch = .ok (.beq 0 0#8) :=
      hword ▸ decodeUnder_encode config.extSpace (i := .beq 0 0#8) rfl
    exact hangs_of_step_self hrun ((step_eq_exec hrun heven hi).trans (exec_beq_self s))
  · have hi : decode s.fetch = .ok (.jmp (s.pc.setWidth 12)) := by
      rw [hword, ← encode_jmp_setWidth hle]
      exact decodeUnder_encode config.extSpace rfl
    refine hangs_of_step_self hrun ((step_eq_exec hrun heven hi).trans ?_)
    rw [exec_jmp, jumpTarget_setWidth hle]
    rfl

end Sys2Proof.Machine
end

section
/-!
PROOFS. The assembler's fields and texts (30_encoding.md R54, R58, R59).
-/

namespace Sys2Proof.Machine

/-! ### Numbers (R58, D18) -/

/-- A field of `n` bits holds the number modulo 2^n. -/
theorem toNat_ofInt_emod (n : Nat) (v : Int) :
    ((BitVec.ofInt n v).toNat : Int) = v % (2 ^ n : Nat) := by
  rw [BitVec.toNat_ofInt, Int.toNat_of_nonneg (Int.emod_nonneg v (by positivity))]

section
variable {v : Int}

theorem byteField_of_range (h : -128 ≤ v ∧ v ≤ 255) : byteField v = .ok (BitVec.ofInt 8 v) :=
  if_pos h

theorem offField_of_range (h : 0 ≤ v ∧ v ≤ 15) : offField v = .ok (BitVec.ofInt 4 v) :=
  if_pos h

theorem addrField_of_range (h : 0 ≤ v ∧ v ≤ 0xFFF) : addrField v = .ok (BitVec.ofInt 12 v) :=
  if_pos h

end

/-- Settles O48: a number in range goes in modulo the field's size, which for Off and Addr12 leaves
it as it is. -/
theorem numbersAreRefusedNotTruncated : Obligations.NumbersAreRefusedNotTruncated := by
  intro v
  refine ⟨fun h => ⟨_, byteField_of_range h, toNat_ofInt_emod 8 v⟩, fun h => if_neg h,
    fun h => ⟨_, offField_of_range h, ?off⟩, fun h => if_neg h,
    fun h => ⟨_, addrField_of_range h, ?addr⟩, fun h => if_neg h⟩
  case off => exact (toNat_ofInt_emod 4 v).trans (Int.emod_eq_of_lt h.1 (by omega))
  case addr => exact (toNat_ofInt_emod 12 v).trans (Int.emod_eq_of_lt h.1 (by omega))

/-! ### Branch labels (R59, D17) -/

theorem branchField_eq_ok_iff (l : List Char) (addr target : Nat) (off8 : BitVec 8) :
    branchField l addr target = .ok off8 ↔
      (-128 ≤ (target : Int) - addr ∧ (target : Int) - addr ≤ 126 ∧
        ((target : Int) - addr) % 2 = 0) ∧ off8 = BitVec.ofInt 8 ((target : Int) - addr) := by
  simp only [branchField]
  split
  next h => rw [Except.ok.injEq, eq_comm, and_iff_right h]
  next h => exact ⟨nofun, fun hok => absurd hok.1 h⟩

/-- A branch with the offset of a label goes to the label when it is taken. -/
theorem branchTarget_of_branchField {l : List Char} {pc target : Word} {off8 : BitVec 8}
    (h : branchField l pc.toNat target.toNat = .ok off8) : branchTarget pc off8 = target := by
  obtain ⟨⟨hlow, hhigh, -⟩, rfl⟩ := (branchField_eq_ok_iff l pc.toNat target.toNat off8).mp h
  have hoff : (BitVec.ofInt 8 ((target.toNat : Int) - pc.toNat)).toInt = target.toNat - pc.toNat :=
    BitVec.toInt_ofInt_eq_self (by decide) hlow (by omega)
  have hsum := toNat_branchTarget (BitVec.ofInt 8 ((target.toNat : Int) - pc.toNat)) pc
  have htarget := target.isLt
  rw [hoff] at hsum
  apply BitVec.eq_of_toNat_eq
  omega

/-- Settles O47, from the range of a branch label and the target its offset gives. -/
theorem branchToALabelReachesIt : Obligations.BranchToALabelReachesIt := by
  intro l s target rc
  refine ⟨fun off8 hoff => ⟨fun hzero => ⟨_, exec_beq s rc off8, ?beq⟩,
    fun hzero => ⟨_, exec_bne s rc off8, ?bne⟩⟩, ?accepted⟩
  case beq => rw [if_pos hzero]; exact branchTarget_of_branchField hoff
  case bne => rw [if_neg hzero]; exact branchTarget_of_branchField hoff
  case accepted => simp only [branchField_eq_ok_iff, exists_and_left, exists_eq, and_true]

/-! ### Texts (R54, D17) -/

section
variable {x : ExtSpace} {labels : List (List Char × Nat)} {addr : Nat} {l : Line} {rest : List Line}

/-- A line without an instruction takes no word. -/
theorem wordsFrom_cons_none (h : l.op = none) :
    wordsFrom x labels addr (l :: rest) = wordsFrom x labels addr rest := by
  rw [wordsFrom, h]

/-- A line with one takes one word, and the next line starts two bytes on. -/
theorem of_wordsFrom_cons_some {st : List Char × List Operand} {ws : List Word}
    (hop : l.op = some st) (h : wordsFrom x labels addr (l :: rest) = .ok ws) :
    ∃ w ws', wordOf x labels addr st = .ok w ∧ wordsFrom x labels (addr + 2) rest = .ok ws' ∧
      ws = w :: ws' := by
  rw [wordsFrom, hop] at h
  dsimp only at h
  cases hw : wordOf x labels addr st with
  | error e =>
    rw [hw] at h
    cases h
  | ok w =>
    rw [hw] at h
    dsimp only at h
    split at h
    · cases hws : wordsFrom x labels (addr + 2) rest with
      | error e =>
        rw [hws] at h
        cases h
      | ok ws' =>
        rw [hws] at h
        cases h
        exact ⟨w, ws', rfl, rfl, rfl⟩
    · cases h

/-- The words of the lines are those of their statements, each at its own address. -/
theorem words_of_wordsFrom {ls : List Line} {ws : List Word}
    (h : wordsFrom x labels addr ls = .ok ws) :
    ws.length = (ls.filterMap (·.op)).length ∧
      ∀ (k : Nat) (hk : k < ws.length) (st : List Char × List Operand),
        (ls.filterMap (·.op))[k]? = some st → wordOf x labels (addr + 2 * k) st = .ok ws[k] := by
  induction ls generalizing addr ws with
  | nil =>
    cases h
    exact ⟨rfl, fun k hk => absurd hk (Nat.not_lt_zero k)⟩
  | cons l rest ih =>
    cases hop : l.op with
    | none =>
      rw [wordsFrom_cons_none hop] at h
      rw [List.filterMap_cons_none hop]
      exact ih h
    | some st =>
      obtain ⟨w, ws', hw, hws, rfl⟩ := of_wordsFrom_cons_some hop h
      obtain ⟨hlen, hwords⟩ := ih hws
      rw [List.filterMap_cons_some hop]
      refine ⟨congrArg (· + 1) hlen, fun k hk st' hst => ?_⟩
      cases k with
      | zero =>
        cases hst
        exact hw
      | succ k =>
        have haddr : addr + 2 * (k + 1) = addr + 2 + 2 * k := by omega
        rw [haddr]
        exact hwords k (Nat.lt_of_succ_lt_succ hk) st' hst

end

/-- A text that assembles is one whose lines parse, and whose words are those of its lines from
RESET_PC on. -/
theorem of_assemble {c : Config} {text : List Char} {ws : List Word}
    (h : assemble c text = .ok ws) :
    ∃ ls, linesOf (splitLines text []) = .ok ls ∧
      wordsFrom c.extSpace (labelsFrom c.resetPc.toNat ls) c.resetPc.toNat ls = .ok ws := by
  unfold assemble at h
  split at h
  next => cases h
  next ls hls =>
    refine ⟨ls, hls, ?_⟩
    dsimp only at h
    split at h
    · cases h
    · exact h

/-- Settles O49, by induction on the lines of the text. -/
theorem assembledTextHasOneWordPerInstruction :
    Obligations.AssembledTextHasOneWordPerInstruction := by
  intro c text ws h
  obtain ⟨ls, hls, hws⟩ := of_assemble h
  obtain ⟨hlen, hwords⟩ := words_of_wordsFrom hws
  exact ⟨ls, hls, hlen, hwords⟩

end Sys2Proof.Machine
end

section
/-!
PROOFS. The assembler's statements (30_encoding.md R55 to R61): which operands a mnemonic takes.
-/

namespace Sys2Proof.Machine

/-! ### Operands (R56 to R58) -/

theorem bind_eq_ok_iff {ε α β : Type} {x : Except ε α} {f : α → Except ε β} {b : β} :
    x >>= f = .ok b ↔ ∃ a, x = .ok a ∧ f a = .ok b := by
  cases x with
  | ok a => exact ⟨fun h => ⟨a, rfl, h⟩, fun ⟨_, rfl, h⟩ => h⟩
  | error e => exact ⟨nofun, nofun⟩

theorem pure_eq_ok_iff {ε α : Type} {a b : α} : (pure a : Except ε α) = .ok b ↔ b = a :=
  ⟨fun h => (Except.ok.inj h).symm, fun h => congrArg Except.ok h.symm⟩

theorem asReg_eq_ok_iff {m : Mnemonic} {o : Operand} {r : Reg} :
    asReg m o = .ok r ↔ o = .reg r := by
  cases o <;> simp [asReg]

theorem asNum_eq_ok_iff {m : Mnemonic} {o : Operand} {v : Int} :
    asNum m o = .ok v ↔ o = .num v := by
  cases o <;> simp [asNum]

/-! ### Formats (R55) -/

section
variable {m : Mnemonic} {ops : List Operand} {i : Instr} {labels : List (List Char × Nat)}
  {addr : Nat}

theorem noOperands_eq_ok_iff {j : Instr} : noOperands m j ops = .ok i ↔ ops = [] ∧ i = j := by
  cases ops with
  | nil => exact ⟨fun h => ⟨rfl, (Except.ok.inj h).symm⟩, fun ⟨_, h⟩ => congrArg Except.ok h.symm⟩
  | cons o os => exact ⟨nofun, nofun⟩

theorem threeRegs_eq_ok_iff {make : Reg → Reg → Reg → Instr} :
    threeRegs m make ops = .ok i ↔
      ∃ rd rs rt, ops = [.reg rd, .reg rs, .reg rt] ∧ i = make rd rs rt := by
  constructor
  · intro h
    unfold threeRegs at h
    split at h
    · simp only [bind_eq_ok_iff, asReg_eq_ok_iff, pure_eq_ok_iff] at h
      obtain ⟨rd, rfl, rs, rfl, rt, rfl, rfl⟩ := h
      exact ⟨rd, rs, rt, rfl, rfl⟩
    · cases h
  · rintro ⟨rd, rs, rt, rfl, rfl⟩
    rfl

theorem regImm_eq_ok_iff {make : Reg → BitVec 8 → Instr} :
    regImm m make ops = .ok i ↔
      ∃ rd v imm8, ops = [.reg rd, .num v] ∧ byteField v = .ok imm8 ∧ i = make rd imm8 := by
  constructor
  · intro h
    unfold regImm at h
    split at h
    · simp only [bind_eq_ok_iff, asReg_eq_ok_iff, asNum_eq_ok_iff, pure_eq_ok_iff] at h
      obtain ⟨rd, rfl, v, rfl, imm8, himm, rfl⟩ := h
      exact ⟨rd, v, imm8, rfl, himm, rfl⟩
    · cases h
  · rintro ⟨rd, v, imm8, rfl, himm, rfl⟩
    simp only [regImm, bind_eq_ok_iff, asReg_eq_ok_iff, asNum_eq_ok_iff, pure_eq_ok_iff]
    exact ⟨rd, rfl, v, rfl, imm8, himm, rfl⟩

theorem regRegOff_eq_ok_iff {make : Reg → Reg → BitVec 4 → Instr} :
    regRegOff m make ops = .ok i ↔
      ∃ rd rs v off4, ops = [.reg rd, .reg rs, .num v] ∧ offField v = .ok off4 ∧
        i = make rd rs off4 := by
  constructor
  · intro h
    unfold regRegOff at h
    split at h
    · simp only [bind_eq_ok_iff, asReg_eq_ok_iff, asNum_eq_ok_iff, pure_eq_ok_iff] at h
      obtain ⟨rd, rfl, rs, rfl, v, rfl, off4, hoff, rfl⟩ := h
      exact ⟨rd, rs, v, off4, rfl, hoff, rfl⟩
    · cases h
  · rintro ⟨rd, rs, v, off4, rfl, hoff, rfl⟩
    simp only [regRegOff, bind_eq_ok_iff, asReg_eq_ok_iff, asNum_eq_ok_iff, pure_eq_ok_iff]
    exact ⟨rd, rfl, rs, rfl, v, rfl, off4, hoff, rfl⟩

theorem regOffset_eq_ok_iff {make : Reg → BitVec 8 → Instr} :
    regOffset m labels addr make ops = .ok i ↔
      ∃ rc off8, ((∃ v, ops = [.reg rc, .num v] ∧ byteField v = .ok off8) ∨
        ∃ l a, ops = [.reg rc, .label l] ∧ addressOf labels l = .ok a ∧
          branchField l addr a = .ok off8) ∧ i = make rc off8 := by
  constructor
  · intro h
    unfold regOffset at h
    split at h
    · simp only [bind_eq_ok_iff, asReg_eq_ok_iff, pure_eq_ok_iff] at h
      obtain ⟨rc, rfl, a, haddr, off8, hoff, rfl⟩ := h
      exact ⟨rc, off8, .inr ⟨_, a, rfl, haddr, hoff⟩, rfl⟩
    · simp only [bind_eq_ok_iff, asReg_eq_ok_iff, asNum_eq_ok_iff, pure_eq_ok_iff] at h
      obtain ⟨rc, rfl, v, rfl, off8, hoff, rfl⟩ := h
      exact ⟨rc, off8, .inl ⟨v, rfl, hoff⟩, rfl⟩
    · cases h
  · rintro ⟨rc, off8, ⟨v, rfl, hoff⟩ | ⟨l, a, rfl, haddr, hoff⟩, rfl⟩
    · simp only [regOffset, bind_eq_ok_iff, asReg_eq_ok_iff, asNum_eq_ok_iff, pure_eq_ok_iff]
      exact ⟨rc, rfl, v, rfl, off8, hoff, rfl⟩
    · simp only [regOffset, bind_eq_ok_iff, asReg_eq_ok_iff, pure_eq_ok_iff]
      exact ⟨rc, rfl, a, haddr, off8, hoff, rfl⟩

theorem jumpOperand_eq_ok_iff :
    jumpOperand labels ops = .ok i ↔
      ∃ addr12, ((∃ v, ops = [.num v] ∧ addrField v = .ok addr12) ∨
        ∃ l a, ops = [.label l] ∧ addressOf labels l = .ok a ∧ jumpField l a = .ok addr12) ∧
        i = .jmp addr12 := by
  constructor
  · intro h
    unfold jumpOperand at h
    split at h
    · simp only [bind_eq_ok_iff, pure_eq_ok_iff] at h
      obtain ⟨a, haddr, addr12, hfield, rfl⟩ := h
      exact ⟨addr12, .inr ⟨_, a, rfl, haddr, hfield⟩, rfl⟩
    · simp only [bind_eq_ok_iff, asNum_eq_ok_iff, pure_eq_ok_iff] at h
      obtain ⟨v, rfl, addr12, hfield, rfl⟩ := h
      exact ⟨addr12, .inl ⟨v, rfl, hfield⟩, rfl⟩
    · cases h
  · rintro ⟨addr12, ⟨v, rfl, hfield⟩ | ⟨l, a, rfl, haddr, hfield⟩, rfl⟩
    · simp only [jumpOperand, bind_eq_ok_iff, asNum_eq_ok_iff, pure_eq_ok_iff]
      exact ⟨v, rfl, addr12, hfield, rfl⟩
    · simp only [jumpOperand, bind_eq_ok_iff, pure_eq_ok_iff]
      exact ⟨a, haddr, addr12, hfield, rfl⟩

/-- NOT takes two registers (D25). -/
theorem instrOf_not_eq_ok_iff :
    instrOf labels addr .not ops = .ok i ↔ ∃ rd rs, ops = [.reg rd, .reg rs] ∧ i = .not rd rs := by
  constructor
  · intro h
    simp only [instrOf] at h
    split at h
    · simp only [bind_eq_ok_iff, asReg_eq_ok_iff, pure_eq_ok_iff] at h
      obtain ⟨rd, rfl, rs, rfl, rfl⟩ := h
      exact ⟨rd, rs, rfl, rfl⟩
    · cases h
  · rintro ⟨rd, rs, rfl, rfl⟩
    rfl

/-! ### Mnemonics (R55) -/

/-- The mnemonic of the assembler that an instruction bears. -/
def mnemonicFor : Instr → Mnemonic
  | .nop => .nop
  | .add _ _ _ => .add
  | .addi _ _ => .addi
  | .sub _ _ _ => .sub
  | .and _ _ _ => .and
  | .or _ _ _ => .or
  | .xor _ _ _ => .xor
  | .not _ _ => .not
  | .shl _ _ _ => .shl
  | .shr _ _ _ => .shr
  | .load _ _ _ => .load
  | .store _ _ _ => .store
  | .loadi _ _ => .loadi
  | .jmp _ => .jmp
  | .beq _ _ => .beq
  | .bne _ _ => .bne
  | .halt => .halt
  | .call _ => .call
  | .ret _ => .ret
  | .push _ => .push
  | .pop _ => .pop

/-- Each mnemonic has one name. -/
theorem mnemonicTable_injective :
    ∀ p ∈ mnemonicTable, ∀ q ∈ mnemonicTable, p.2 = q.2 → p = q :=
  List.inj_on_of_nodup_map (by decide)

theorem mem_mnemonicTable (i : Instr) : (i.mnemonic, mnemonicFor i) ∈ mnemonicTable := by
  cases i <;> simp [mnemonicTable, Instr.mnemonic, mnemonicFor]

/-- Each name stands for one mnemonic. -/
theorem mnemonicOf_of_mem : ∀ p ∈ mnemonicTable, mnemonicOf p.1.toList = some p.2 := by
  decide

theorem mnemonicOf_mnemonic (i : Instr) : mnemonicOf i.mnemonic.toList = some (mnemonicFor i) :=
  mnemonicOf_of_mem (i.mnemonic, mnemonicFor i) (mem_mnemonicTable i)

/-- A name is read as the mnemonic of an instruction exactly when it is the instruction's own. -/
theorem mnemonicOf_eq_iff (name : List Char) (i : Instr) :
    mnemonicOf name = some (mnemonicFor i) ↔ i.mnemonic.toList = name := by
  constructor
  · intro h
    obtain ⟨p, hfind, hp⟩ := Option.map_eq_some_iff.mp h
    have hname : p.1.toList = name := by simpa using List.find?_some hfind
    have hmem := List.mem_of_find?_eq_some hfind
    have hrow := mnemonicTable_injective p hmem _ (mem_mnemonicTable i) hp
    rw [← hname, hrow]
  · rintro rfl
    exact mnemonicOf_mnemonic i

/-! ### Statements (R55, R61) -/

/-- The operands that the assembler accepts after a mnemonic are those that `spells` gives to the
instruction. -/
theorem of_instrOf_eq_ok (h : instrOf labels addr m ops = .ok i) :
    m = mnemonicFor i ∧ spells labels addr ops i := by
  cases m with
  | nop | halt =>
    obtain ⟨hops, rfl⟩ := noOperands_eq_ok_iff.mp h
    exact ⟨rfl, hops⟩
  | add | sub | and | or | xor | shl | shr =>
    obtain ⟨rd, rs, rt, hops, rfl⟩ := threeRegs_eq_ok_iff.mp h
    exact ⟨rfl, hops⟩
  | addi | loadi =>
    obtain ⟨rd, v, imm8, hops, himm, rfl⟩ := regImm_eq_ok_iff.mp h
    exact ⟨rfl, v, hops, himm⟩
  | not =>
    obtain ⟨rd, rs, hops, rfl⟩ := instrOf_not_eq_ok_iff.mp h
    exact ⟨rfl, hops⟩
  | load | store =>
    obtain ⟨rd, rs, v, off4, hops, hoff, rfl⟩ := regRegOff_eq_ok_iff.mp h
    exact ⟨rfl, v, hops, hoff⟩
  | jmp =>
    obtain ⟨addr12, hops, rfl⟩ := jumpOperand_eq_ok_iff.mp h
    exact ⟨rfl, hops⟩
  | beq | bne =>
    obtain ⟨rc, off8, hops, rfl⟩ := regOffset_eq_ok_iff.mp h
    exact ⟨rfl, hops⟩
  | call | ret | push | pop => cases h

/-- The assembler accepts the operands that `spells` gives to an instruction. -/
theorem instrOf_of_spells (h : spells labels addr ops i) :
    instrOf labels addr (mnemonicFor i) ops = .ok i := by
  cases i with
  | nop | halt => exact noOperands_eq_ok_iff.mpr ⟨h, rfl⟩
  | add rd rs rt | sub rd rs rt | and rd rs rt | or rd rs rt | xor rd rs rt | shl rd rs rt
  | shr rd rs rt => exact threeRegs_eq_ok_iff.mpr ⟨rd, rs, rt, h, rfl⟩
  | addi rd imm8 | loadi rd imm8 =>
    obtain ⟨v, hops, himm⟩ := h
    exact regImm_eq_ok_iff.mpr ⟨rd, v, imm8, hops, himm, rfl⟩
  | not rd rs => exact instrOf_not_eq_ok_iff.mpr ⟨rd, rs, h, rfl⟩
  | load rd rs off4 | store rd rs off4 =>
    obtain ⟨v, hops, hoff⟩ := h
    exact regRegOff_eq_ok_iff.mpr ⟨rd, rs, v, off4, hops, hoff, rfl⟩
  | jmp addr12 => exact jumpOperand_eq_ok_iff.mpr ⟨addr12, h, rfl⟩
  | beq rc off8 | bne rc off8 => exact regOffset_eq_ok_iff.mpr ⟨rc, off8, h, rfl⟩
  | call | ret | push | pop => exact h.elim

/-- A statement has a word when its name is a mnemonic, its operands make an instruction, and some
word decodes to that instruction. -/
theorem wordOf_eq_ok_iff {x : ExtSpace} {st : List Char × List Operand} {w : Word} :
    wordOf x labels addr st = .ok w ↔
      ∃ m i, mnemonicOf st.1 = some m ∧ instrOf labels addr m st.2 = .ok i ∧
        i.wellFormed x = true ∧ w = encode i := by
  constructor
  · intro h
    unfold wordOf at h
    split at h
    · cases h
    next m hm =>
      split at h
      · cases h
      next i hi =>
        split at h
        next hwf =>
          cases h
          exact ⟨m, i, hm, hi, hwf, rfl⟩
        · cases h
  · rintro ⟨m, i, hm, hi, hwf, rfl⟩
    simp [wordOf, hm, hi, hwf]

end

/-- Settles O51: the assembler takes an instruction's operands exactly as `spells` writes them, and
a mnemonic by its name. -/
theorem aStatementHasItsOperandsInTheOrderOfItsFormat :
    Obligations.AStatementHasItsOperandsInTheOrderOfItsFormat := by
  intro x labels addr name ops w
  rw [wordOf_eq_ok_iff]
  constructor
  · rintro ⟨m, i, hm, hi, hwf, hw⟩
    obtain ⟨rfl, hspells⟩ := of_instrOf_eq_ok hi
    exact ⟨i, (mnemonicOf_eq_iff name i).mp hm, hspells, hwf, hw⟩
  · rintro ⟨i, hname, hspells, hwf, hw⟩
    exact ⟨mnemonicFor i, i, (mnemonicOf_eq_iff name i).mpr hname, instrOf_of_spells hspells,
      hwf, hw⟩

/-- Settles O46: the word is that of a well-formed instruction, which decodes back, and the four
extended mnemonics make no instruction. -/
theorem assembledStatementDecodesBack : Obligations.AssembledStatementDecodesBack := by
  intro x labels addr st w h
  obtain ⟨m, i, hm, hi, hwf, rfl⟩ := wordOf_eq_ok_iff.mp h
  obtain ⟨hmi, -⟩ := of_instrOf_eq_ok hi
  refine ⟨m, i, hm, hi, decodeUnder_encode x hwf, (mnemonicOf_eq_iff st.1 i).mp (hmi ▸ hm),
    ?_, ?_, ?_, ?_⟩
  all_goals
    rintro rfl
    cases hi

end Sys2Proof.Machine
end
